-- ==== Sys2Proof/Word.lean ====
section
/-! DEFINITION. The word types of the machine (00_scope.md R8, R11; 30_encoding.md R91). -/

namespace Sys2Proof

/-- A memory byte or a V register: 8 bits, unsigned (20_memory.md R61, 10_state.md R22). -/
abbrev Byte := BitVec 8

/-- An instruction word, `pc`, `I` or a stack entry: 16 bits (30_encoding.md R90, 10_state.md R24, R27, R28). -/
abbrev Word := BitVec 16

/-- A 4-bit field of the instruction word (30_encoding.md R91). -/
abbrev Nibble := BitVec 4

/-- A 12-bit address or immediate of the instruction word (30_encoding.md R91). -/
abbrev Addr12 := BitVec 12

/-- The number of a general register, V0 to VF (10_state.md R20). -/
abbrev Reg := Fin 16

end Sys2Proof
end

