-- ==== Sys2Proof/Syntax.lean ====
section
/-! DEFINITION. The instructions: one constructor for each of the 34 rows of spec/opcode_table.json (30_encoding.md R95). -/

namespace Sys2Proof

/-- An instruction with its operands (30_encoding.md R91 to R93). `x` and `y` name registers, `kk` is a byte, `nnn` a
12-bit address, `n` a count of sprite rows (0 to 15: `Instr.WellFormed`). SHR and SHL keep the `y` field of their word:
it is "decoded but not used" (R93). -/
inductive Instr where
  /-- 00E0 CLS (R150) -/
  | cls
  /-- 00EE RET (R151) -/
  | ret
  /-- 1nnn JP addr (R152) -/
  | jpAddr (nnn : Addr12)
  /-- 2nnn CALL addr (R153) -/
  | callAddr (nnn : Addr12)
  /-- 3xkk SE Vx,kk (R154) -/
  | seVxKk (x : Reg) (kk : Byte)
  /-- 4xkk SNE Vx,kk (R156) -/
  | sneVxKk (x : Reg) (kk : Byte)
  /-- 5xy0 SE Vx,Vy (R155) -/
  | seVxVy (x y : Reg)
  /-- 6xkk LD Vx,kk (R180) -/
  | ldVxKk (x : Reg) (kk : Byte)
  /-- 7xkk ADD Vx,kk (R181) -/
  | addVxKk (x : Reg) (kk : Byte)
  /-- 8xy0 LD Vx,Vy (R182) -/
  | ldVxVy (x y : Reg)
  /-- 8xy1 OR Vx,Vy (R183) -/
  | orVxVy (x y : Reg)
  /-- 8xy2 AND Vx,Vy (R184) -/
  | andVxVy (x y : Reg)
  /-- 8xy3 XOR Vx,Vy (R185) -/
  | xorVxVy (x y : Reg)
  /-- 8xy4 ADD Vx,Vy (R186) -/
  | addVxVy (x y : Reg)
  /-- 8xy5 SUB Vx,Vy (R187) -/
  | subVxVy (x y : Reg)
  /-- 8xy6 SHR Vx (R188) -/
  | shrVx (x y : Reg)
  /-- 8xy7 SUBN Vx,Vy (R189) -/
  | subnVxVy (x y : Reg)
  /-- 8xyE SHL Vx (R190) -/
  | shlVx (x y : Reg)
  /-- 9xy0 SNE Vx,Vy (R157) -/
  | sneVxVy (x y : Reg)
  /-- Annn LD I,addr (R210) -/
  | ldIAddr (nnn : Addr12)
  /-- Bnnn JP V0,addr (R211) -/
  | jpV0Addr (nnn : Addr12)
  /-- Cxkk RND Vx,kk (R212) -/
  | rndVxKk (x : Reg) (kk : Byte)
  /-- Dxyn DRW Vx,Vy,n (R213) -/
  | drwVxVyN (x y : Reg) (n : Nat)
  /-- Ex9E SKP Vx (R240) -/
  | skpVx (x : Reg)
  /-- ExA1 SKNP Vx (R241) -/
  | sknpVx (x : Reg)
  /-- Fx07 LD Vx,DT (R242) -/
  | ldVxDt (x : Reg)
  /-- Fx0A LD Vx,K (R243) -/
  | ldVxK (x : Reg)
  /-- Fx15 LD DT,Vx (R244) -/
  | ldDtVx (x : Reg)
  /-- Fx18 LD ST,Vx (R245) -/
  | ldStVx (x : Reg)
  /-- Fx1E ADD I,Vx (R246) -/
  | addIVx (x : Reg)
  /-- Fx29 LD F,Vx (R247) -/
  | ldFVx (x : Reg)
  /-- Fx33 LD B,Vx (R248) -/
  | ldBVx (x : Reg)
  /-- Fx55 LD [I],Vx (R251) -/
  | ldMemVx (x : Reg)
  /-- Fx65 LD Vx,[I] (R252) -/
  | ldVxMem (x : Reg)
  deriving DecidableEq, Repr

end Sys2Proof
end

