-- ==== Sys2Proof/Decode.lean ====
section
/-! DEFINITION. The decoder and the opcode dispatcher (30_encoding.md), the encoder, and the opcode table as data. -/

namespace Sys2Proof

/-- Why bytes are no instruction. -/
inductive DecodeError where
  /-- No row of 30_encoding.md R95 matches the word (R97). Safe: the engine reports it and goes on (R128). -/
  | unknownOpcode (w : Word)
  /-- Fewer than the two bytes that every instruction has (R90). Safe: the engine never decodes such a list. -/
  | truncated (found : Nat)
  deriving DecidableEq, Repr

/-- Big-endian: the byte at the lower address is bits 15..8 (20_memory.md R62). -/
def wordOfBytes (hi lo : Byte) : Word := hi ++ lo

/-- The byte of `w` that lies at the lower address (20_memory.md R62). -/
def highByte (w : Word) : Byte := w.extractLsb' 8 8

/-- The byte of `w` that lies at the higher address (20_memory.md R62). -/
def lowByte (w : Word) : Byte := w.extractLsb' 0 8

/-! ## The six fields (30_encoding.md R91) -/

/-- `op` = w[15:12] -/
def fieldOp (w : Word) : Nibble := w.extractLsb' 12 4
/-- `x` = w[11:8] -/
def fieldX (w : Word) : Reg := (w.extractLsb' 8 4).toFin
/-- `y` = w[7:4] -/
def fieldY (w : Word) : Reg := (w.extractLsb' 4 4).toFin
/-- `kk` = w[7:0] -/
def fieldKk (w : Word) : Byte := w.extractLsb' 0 8
/-- `n` = w[3:0] -/
def fieldN (w : Word) : Nibble := w.extractLsb' 0 4
/-- `nnn` = w[11:0] -/
def fieldNnn (w : Word) : Addr12 := w.extractLsb' 0 12

/-! ## Dispatch (30_encoding.md R94, R95) -/

/-- Family 0: exactly the words 00E0 and 00EE (R95; 92_eei_decisions.md D24, D25). -/
def decodeFamily0 (w : Word) : Except DecodeError Instr :=
  if w = 0x00E0 then .ok .cls
  else if w = 0x00EE then .ok .ret
  else .error (.unknownOpcode w)

/-- Family 8, keyed on `n` (R94, R95). -/
def decodeFamily8 (w : Word) : Except DecodeError Instr :=
  match fieldN w with
  | 0x0#4 => .ok (.ldVxVy (fieldX w) (fieldY w))
  | 0x1#4 => .ok (.orVxVy (fieldX w) (fieldY w))
  | 0x2#4 => .ok (.andVxVy (fieldX w) (fieldY w))
  | 0x3#4 => .ok (.xorVxVy (fieldX w) (fieldY w))
  | 0x4#4 => .ok (.addVxVy (fieldX w) (fieldY w))
  | 0x5#4 => .ok (.subVxVy (fieldX w) (fieldY w))
  | 0x6#4 => .ok (.shrVx (fieldX w) (fieldY w))
  | 0x7#4 => .ok (.subnVxVy (fieldX w) (fieldY w))
  | 0xE#4 => .ok (.shlVx (fieldX w) (fieldY w))
  | _ => .error (.unknownOpcode w)

/-- Family E, keyed on `kk` (R94, R95). -/
def decodeFamilyE (w : Word) : Except DecodeError Instr :=
  match fieldKk w with
  | 0x9E#8 => .ok (.skpVx (fieldX w))
  | 0xA1#8 => .ok (.sknpVx (fieldX w))
  | _ => .error (.unknownOpcode w)

/-- Family F, keyed on `kk` (R94, R95). -/
def decodeFamilyF (w : Word) : Except DecodeError Instr :=
  match fieldKk w with
  | 0x07#8 => .ok (.ldVxDt (fieldX w))
  | 0x0A#8 => .ok (.ldVxK (fieldX w))
  | 0x15#8 => .ok (.ldDtVx (fieldX w))
  | 0x18#8 => .ok (.ldStVx (fieldX w))
  | 0x1E#8 => .ok (.addIVx (fieldX w))
  | 0x29#8 => .ok (.ldFVx (fieldX w))
  | 0x33#8 => .ok (.ldBVx (fieldX w))
  | 0x55#8 => .ok (.ldMemVx (fieldX w))
  | 0x65#8 => .ok (.ldVxMem (fieldX w))
  | _ => .error (.unknownOpcode w)

/-- A row of a family whose `n` field must be 0: 5xy0 and 9xy0 (R95; 92_eei_decisions.md D24). -/
def requireN0 (w : Word) (i : Instr) : Except DecodeError Instr :=
  if fieldN w = 0 then .ok i else .error (.unknownOpcode w)

/-- The decode map (30_encoding.md R95): total, and a word that no row matches is rejected by name (R97). The last arm is
family F, the one nibble left. -/
def decode (w : Word) : Except DecodeError Instr :=
  match fieldOp w with
  | 0x0#4 => decodeFamily0 w
  | 0x1#4 => .ok (.jpAddr (fieldNnn w))
  | 0x2#4 => .ok (.callAddr (fieldNnn w))
  | 0x3#4 => .ok (.seVxKk (fieldX w) (fieldKk w))
  | 0x4#4 => .ok (.sneVxKk (fieldX w) (fieldKk w))
  | 0x5#4 => requireN0 w (.seVxVy (fieldX w) (fieldY w))
  | 0x6#4 => .ok (.ldVxKk (fieldX w) (fieldKk w))
  | 0x7#4 => .ok (.addVxKk (fieldX w) (fieldKk w))
  | 0x8#4 => decodeFamily8 w
  | 0x9#4 => requireN0 w (.sneVxVy (fieldX w) (fieldY w))
  | 0xA#4 => .ok (.ldIAddr (fieldNnn w))
  | 0xB#4 => .ok (.jpV0Addr (fieldNnn w))
  | 0xC#4 => .ok (.rndVxKk (fieldX w) (fieldKk w))
  | 0xD#4 => .ok (.drwVxVyN (fieldX w) (fieldY w) (fieldN w).toNat)
  | 0xE#4 => decodeFamilyE w
  | _ => decodeFamilyF w

/-- Decoding from memory order: two bytes, the lower address first, and the bytes after them (R90; 20_memory.md R62). -/
def decodeBytes : List Byte → Except DecodeError (Instr × List Byte)
  | hi :: lo :: rest => (decode (wordOfBytes hi lo)).map (·, rest)
  | [_] => .error (.truncated 1)
  | [] => .error (.truncated 0)

/-- What the decoder reads from the instruction whose bits are `w`, as spec/opcode_table.json numbers them: the word laid
out in memory order and decoded. Every row has 16 bits; bits from `nbits` on are 0. -/
def decodeTableWord (nbits w : Nat) : Option Instr :=
  let word : Word := BitVec.ofNat 16 (w % 2 ^ nbits)
  match decodeBytes [highByte word, lowByte word] with
  | .ok (i, _) => some i
  | .error _ => none

/-! ## The encoder: the formats of 30_encoding.md R93, filled in as opcode_table.json's encodings say -/

/-- A register field. -/
def regBits (r : Reg) : Nibble := BitVec.ofFin r
/-- Format ADDR: `oooo nnnn nnnn nnnn`. -/
def formatAddr (op : Nibble) (nnn : Addr12) : Word := op ++ nnn
/-- Formats REG_IMM and REG_SUB: `oooo xxxx kkkk kkkk`. -/
def formatRegImm (op : Nibble) (x : Reg) (kk : Byte) : Word := op ++ regBits x ++ kk
/-- Formats REG_REG and DRAW: `oooo xxxx yyyy nnnn`. -/
def formatRegReg (op : Nibble) (x y : Reg) (n : Nibble) : Word := op ++ regBits x ++ regBits y ++ n

/-- The word of an instruction. -/
def encode : Instr → Word
  | .cls => 0x00E0
  | .ret => 0x00EE
  | .jpAddr nnn => formatAddr 0x1 nnn
  | .callAddr nnn => formatAddr 0x2 nnn
  | .seVxKk x kk => formatRegImm 0x3 x kk
  | .sneVxKk x kk => formatRegImm 0x4 x kk
  | .seVxVy x y => formatRegReg 0x5 x y 0x0
  | .ldVxKk x kk => formatRegImm 0x6 x kk
  | .addVxKk x kk => formatRegImm 0x7 x kk
  | .ldVxVy x y => formatRegReg 0x8 x y 0x0
  | .orVxVy x y => formatRegReg 0x8 x y 0x1
  | .andVxVy x y => formatRegReg 0x8 x y 0x2
  | .xorVxVy x y => formatRegReg 0x8 x y 0x3
  | .addVxVy x y => formatRegReg 0x8 x y 0x4
  | .subVxVy x y => formatRegReg 0x8 x y 0x5
  | .shrVx x y => formatRegReg 0x8 x y 0x6
  | .subnVxVy x y => formatRegReg 0x8 x y 0x7
  | .shlVx x y => formatRegReg 0x8 x y 0xE
  | .sneVxVy x y => formatRegReg 0x9 x y 0x0
  | .ldIAddr nnn => formatAddr 0xA nnn
  | .jpV0Addr nnn => formatAddr 0xB nnn
  | .rndVxKk x kk => formatRegImm 0xC x kk
  | .drwVxVyN x y n => formatRegReg 0xD x y (BitVec.ofNat 4 n)
  | .skpVx x => formatRegImm 0xE x 0x9E
  | .sknpVx x => formatRegImm 0xE x 0xA1
  | .ldVxDt x => formatRegImm 0xF x 0x07
  | .ldVxK x => formatRegImm 0xF x 0x0A
  | .ldDtVx x => formatRegImm 0xF x 0x15
  | .ldStVx x => formatRegImm 0xF x 0x18
  | .addIVx x => formatRegImm 0xF x 0x1E
  | .ldFVx x => formatRegImm 0xF x 0x29
  | .ldBVx x => formatRegImm 0xF x 0x33
  | .ldMemVx x => formatRegImm 0xF x 0x55
  | .ldVxMem x => formatRegImm 0xF x 0x65

/-- The two bytes of an instruction in memory order (20_memory.md R62). -/
def encodeBytes (i : Instr) : List Byte := [highByte (encode i), lowByte (encode i)]

/-- `SHR Vx` as assembled: y is 0 (30_encoding.md R98). -/
def assembledShr (x : Reg) : Instr := .shrVx x 0

/-- `SHL Vx` as assembled: y is 0 (30_encoding.md R98). -/
def assembledShl (x : Reg) : Instr := .shlVx x 0

/-! ## The opcode table as data (opcode_table.json) -/

/-- A row's fixed bits: `w` is of this row when `w &&& mask = pattern`. -/
structure OpcodeRow where
  mnemonic : String
  pattern  : Word
  mask     : Word
  deriving DecidableEq, Repr

/-- The row matches the word. -/
def OpcodeRow.matchesWord (r : OpcodeRow) (w : Word) : Bool := w &&& r.mask = r.pattern

/-- Rows of families 0 to 7. -/
def opcodeRowsLow : List OpcodeRow :=
  [⟨"CLS", 0x00E0, 0xFFFF⟩, ⟨"RET", 0x00EE, 0xFFFF⟩, ⟨"JP_addr", 0x1000, 0xF000⟩, ⟨"CALL_addr", 0x2000, 0xF000⟩,
   ⟨"SE_Vx_kk", 0x3000, 0xF000⟩, ⟨"SNE_Vx_kk", 0x4000, 0xF000⟩, ⟨"SE_Vx_Vy", 0x5000, 0xF00F⟩,
   ⟨"LD_Vx_kk", 0x6000, 0xF000⟩, ⟨"ADD_Vx_kk", 0x7000, 0xF000⟩]

/-- Rows of family 8. -/
def opcodeRowsAlu : List OpcodeRow :=
  [⟨"LD_Vx_Vy", 0x8000, 0xF00F⟩, ⟨"OR_Vx_Vy", 0x8001, 0xF00F⟩, ⟨"AND_Vx_Vy", 0x8002, 0xF00F⟩,
   ⟨"XOR_Vx_Vy", 0x8003, 0xF00F⟩, ⟨"ADD_Vx_Vy", 0x8004, 0xF00F⟩, ⟨"SUB_Vx_Vy", 0x8005, 0xF00F⟩,
   ⟨"SHR_Vx", 0x8006, 0xF00F⟩, ⟨"SUBN_Vx_Vy", 0x8007, 0xF00F⟩, ⟨"SHL_Vx", 0x800E, 0xF00F⟩]

/-- Rows of families 9 to E. -/
def opcodeRowsHigh : List OpcodeRow :=
  [⟨"SNE_Vx_Vy", 0x9000, 0xF00F⟩, ⟨"LD_I_addr", 0xA000, 0xF000⟩, ⟨"JP_V0_addr", 0xB000, 0xF000⟩,
   ⟨"RND_Vx_kk", 0xC000, 0xF000⟩, ⟨"DRW_Vx_Vy_n", 0xD000, 0xF000⟩, ⟨"SKP_Vx", 0xE09E, 0xF0FF⟩,
   ⟨"SKNP_Vx", 0xE0A1, 0xF0FF⟩]

/-- Rows of family F. -/
def opcodeRowsMisc : List OpcodeRow :=
  [⟨"LD_Vx_DT", 0xF007, 0xF0FF⟩, ⟨"LD_Vx_K", 0xF00A, 0xF0FF⟩, ⟨"LD_DT_Vx", 0xF015, 0xF0FF⟩,
   ⟨"LD_ST_Vx", 0xF018, 0xF0FF⟩, ⟨"ADD_I_Vx", 0xF01E, 0xF0FF⟩, ⟨"LD_F_Vx", 0xF029, 0xF0FF⟩,
   ⟨"LD_B_Vx", 0xF033, 0xF0FF⟩, ⟨"LD__I__Vx", 0xF055, 0xF0FF⟩, ⟨"LD_Vx__I", 0xF065, 0xF0FF⟩]

/-- The 34 rows of spec/opcode_table.json, in its order. -/
def opcodeRows : List OpcodeRow := opcodeRowsLow ++ opcodeRowsAlu ++ opcodeRowsHigh ++ opcodeRowsMisc

/-- The mnemonic of an instruction's row, as spec/opcode_table.json spells it. -/
def Instr.mnemonic : Instr → String
  | .cls => "CLS" | .ret => "RET" | .jpAddr _ => "JP_addr" | .callAddr _ => "CALL_addr"
  | .seVxKk _ _ => "SE_Vx_kk" | .sneVxKk _ _ => "SNE_Vx_kk" | .seVxVy _ _ => "SE_Vx_Vy"
  | .ldVxKk _ _ => "LD_Vx_kk" | .addVxKk _ _ => "ADD_Vx_kk" | .ldVxVy _ _ => "LD_Vx_Vy"
  | .orVxVy _ _ => "OR_Vx_Vy" | .andVxVy _ _ => "AND_Vx_Vy" | .xorVxVy _ _ => "XOR_Vx_Vy"
  | .addVxVy _ _ => "ADD_Vx_Vy" | .subVxVy _ _ => "SUB_Vx_Vy" | .shrVx _ _ => "SHR_Vx"
  | .subnVxVy _ _ => "SUBN_Vx_Vy" | .shlVx _ _ => "SHL_Vx" | .sneVxVy _ _ => "SNE_Vx_Vy"
  | .ldIAddr _ => "LD_I_addr" | .jpV0Addr _ => "JP_V0_addr" | .rndVxKk _ _ => "RND_Vx_kk"
  | .drwVxVyN _ _ _ => "DRW_Vx_Vy_n" | .skpVx _ => "SKP_Vx" | .sknpVx _ => "SKNP_Vx"
  | .ldVxDt _ => "LD_Vx_DT" | .ldVxK _ => "LD_Vx_K" | .ldDtVx _ => "LD_DT_Vx" | .ldStVx _ => "LD_ST_Vx"
  | .addIVx _ => "ADD_I_Vx" | .ldFVx _ => "LD_F_Vx" | .ldBVx _ => "LD_B_Vx" | .ldMemVx _ => "LD__I__Vx"
  | .ldVxMem _ => "LD_Vx__I"

/-! ## Assembler text (30_encoding.md R98) -/

/-- One upper-case hexadecimal digit. -/
def hexDigit (d : Nat) : String :=
  ["0", "1", "2", "3", "4", "5", "6", "7", "8", "9", "A", "B", "C", "D", "E", "F"].getD (d % 16) "0"

/-- `V0`..`VF` (R98). -/
def Reg.asm (r : Reg) : String := "V" ++ hexDigit r.val

/-- A byte as `0x` and two digits (R98). -/
def Byte.asm (b : Byte) : String := "0x" ++ hexDigit (b.toNat / 16) ++ hexDigit b.toNat

/-- A 12-bit address as `0x` and three digits, as in "JP 0x200" (R98). -/
def Addr12.asm (a : Addr12) : String :=
  "0x" ++ hexDigit (a.toNat / 256) ++ hexDigit (a.toNat / 16) ++ hexDigit a.toNat

/-- The assembler form: a mnemonic, a space, then comma-separated operands with no spaces (R98). -/
def Instr.asm : Instr → String
  | .cls => "CLS"
  | .ret => "RET"
  | .jpAddr nnn => "JP " ++ Addr12.asm nnn
  | .callAddr nnn => "CALL " ++ Addr12.asm nnn
  | .seVxKk x kk => "SE " ++ Reg.asm x ++ "," ++ Byte.asm kk
  | .sneVxKk x kk => "SNE " ++ Reg.asm x ++ "," ++ Byte.asm kk
  | .seVxVy x y => "SE " ++ Reg.asm x ++ "," ++ Reg.asm y
  | .ldVxKk x kk => "LD " ++ Reg.asm x ++ "," ++ Byte.asm kk
  | .addVxKk x kk => "ADD " ++ Reg.asm x ++ "," ++ Byte.asm kk
  | .ldVxVy x y => "LD " ++ Reg.asm x ++ "," ++ Reg.asm y
  | .orVxVy x y => "OR " ++ Reg.asm x ++ "," ++ Reg.asm y
  | .andVxVy x y => "AND " ++ Reg.asm x ++ "," ++ Reg.asm y
  | .xorVxVy x y => "XOR " ++ Reg.asm x ++ "," ++ Reg.asm y
  | .addVxVy x y => "ADD " ++ Reg.asm x ++ "," ++ Reg.asm y
  | .subVxVy x y => "SUB " ++ Reg.asm x ++ "," ++ Reg.asm y
  | .shrVx x _ => "SHR " ++ Reg.asm x
  | .subnVxVy x y => "SUBN " ++ Reg.asm x ++ "," ++ Reg.asm y
  | .shlVx x _ => "SHL " ++ Reg.asm x
  | .sneVxVy x y => "SNE " ++ Reg.asm x ++ "," ++ Reg.asm y
  | .ldIAddr nnn => "LD I," ++ Addr12.asm nnn
  | .jpV0Addr nnn => "JP V0," ++ Addr12.asm nnn
  | .rndVxKk x kk => "RND " ++ Reg.asm x ++ "," ++ Byte.asm kk
  | .drwVxVyN x y n => "DRW " ++ Reg.asm x ++ "," ++ Reg.asm y ++ "," ++ "0x" ++ hexDigit n
  | .skpVx x => "SKP " ++ Reg.asm x
  | .sknpVx x => "SKNP " ++ Reg.asm x
  | .ldVxDt x => "LD " ++ Reg.asm x ++ ",DT"
  | .ldVxK x => "LD " ++ Reg.asm x ++ ",K"
  | .ldDtVx x => "LD DT," ++ Reg.asm x
  | .ldStVx x => "LD ST," ++ Reg.asm x
  | .addIVx x => "ADD I," ++ Reg.asm x
  | .ldFVx x => "LD F," ++ Reg.asm x
  | .ldBVx x => "LD B," ++ Reg.asm x
  | .ldMemVx x => "LD [I]," ++ Reg.asm x
  | .ldVxMem x => "LD " ++ Reg.asm x ++ ",[I]"

end Sys2Proof
end

