-- ==== Sys2Proof/Config.lean ====
section
/-! DEFINITION. What is fixed for the machine (00_scope.md R8) and the values the spec leaves open (R10). -/

namespace Sys2Proof

/-- MEM_SIZE: "4096 addressable bytes" (00_scope.md R8). -/
abbrev Config.memSize : Nat := 0x1000

/-- PROG_BASE: the reset value of pc and the ROM load address (00_scope.md R8, 20_memory.md R65). -/
abbrev Config.progBase : Nat := 0x200

/-- ROM_MAX: the longest ROM that session start accepts (00_scope.md R8, 70_reset_and_hazards.md R331). -/
abbrev Config.romMax : Nat := 3584

/-- The parameters FONT_BASE and FONT_DATA (00_scope.md R10; 92_eei_decisions.md D17, D18).
The bound of `base` is the spec's FONT_BASE + 80 ≤ 0x200. -/
structure Font where
  base   : Fin 433
  glyphs : Vector Byte 80
  deriving DecidableEq, Repr, Inhabited

/-- The parameter VF_WRITE_ORDER of 42_register_alu.md R179 (92_eei_decisions.md D11): which value VF keeps
when an instruction 8xy4 to 8xyE names VF as its destination. -/
inductive VfWriteOrder where
  /-- the order in which the source's table lists the two writes; the spec's default -/
  | listed
  | flagLast
  | resultLast
  deriving DecidableEq, Repr

/-- FREE VALUE (log 4): the font's place and bytes. The spec gives neither (D17, D18), so nothing constrains them here. -/
opaque Config.font : Font

/-- FREE VALUE (log 3): the oracle `rand` of 00_scope.md R10, the byte of the k-th draw. "any byte, free at each
execution, under no law" (92_eei_decisions.md D20). -/
opaque Config.randomByte : Nat → Byte

end Sys2Proof
end

