-- ==== Sys2Proof/Machine/State.lean ====
section
/-! DEFINITION. The Machine State (10_state.md), the reasons a step can stop, and the state after session start. -/

namespace Sys2Proof.Machine

/-- `memory` as the sorted list of the cells that differ from what session start left (20_memory.md R60; log 16):
`Memory.read`, `Memory.write` and `Memory.wf` stand in Machine/Memory.lean. -/
abbrev Memory := List Host.Cell

/-- `display` (10_state.md R32): row y of 64 one-bit cells, cell x of a row being its bit x. The flat index y*64+x is read
by `Display.cell` (Machine/Ops.lean). -/
abbrev Display := Vector (BitVec 64) 32

/-- The fatal faults of 60_exceptions.md R281. -/
inductive FaultCode where
  /-- code 1: CALL with sp = 16 -/
  | stackOverflow
  /-- code 2: RET with sp = 0 -/
  | stackUnderflow
  /-- code 3: an accessed address I + k ≥ 0x1000 -/
  | memoryOutOfRange
  /-- code 4: a fetch with pc > 0xFFE -/
  | fetchOutOfRange
  /-- code 5: a new pc ≥ 0x1000 -/
  | pcOutOfRange
  /-- code 6: SKP or SKNP with V[x] > 15 -/
  | keyIndexOutOfRange
  deriving DecidableEq, Repr

/-- The `fault` record (60_exceptions.md R281): the code, the address of the instruction that faulted, its word (absent
for a fetch fault) and the extra information the table lists for the code. -/
structure FaultRecord where
  code  : FaultCode
  pc    : Word
  w     : Option Word
  extra : Option Nat
  deriving DecidableEq, Repr

/-- What an operation reports to its caller (40_cycle_engine.md R120). -/
inductive Event where
  /-- the non-fatal diagnostic `UnknownOpcode(pc, w)` (60_exceptions.md R286) -/
  | unknownOpcode (pc w : Word)
  /-- a fault reported as the result of `step()` (60_exceptions.md R282) -/
  | fault (r : FaultRecord)
  /-- the one-shot tone-stop event (60_exceptions.md R294) -/
  | toneStop
  deriving DecidableEq, Repr

/-- The Machine State (10_state.md section 1), the open parameters of 00_scope.md R10, and two fields of the model's own
(log 2, log 3). -/
structure State where
  /-- 4096 bytes (20_memory.md R60), as the cells that differ from session start's -/
  memory       : Memory
  /-- V0 to VF (10_state.md R20) -/
  V            : Vector Byte 16
  /-- the index register (R27) -/
  I            : Word
  /-- the program counter (R24) -/
  pc           : Word
  /-- 16 return addresses (R28) -/
  stack        : Vector Word 16
  /-- the next free stack slot, 0 to 16 (R28) -/
  sp           : Fin 17
  /-- delay_timer (R30) -/
  dt           : Byte
  /-- sound_timer (R30) -/
  st           : Byte
  /-- key k is pressed (R31) -/
  keypad       : Vector Bool 16
  /-- 64 by 32 one-bit cells (R32) -/
  display      : Display
  /-- the renderer must repaint (R33) -/
  drawFlag     : Bool
  /-- a fault stopped the session (R34) -/
  halted       : Bool
  /-- the fault that stopped it (R34, 60_exceptions.md R281) -/
  fault        : Option FaultRecord
  /-- session configuration, read-only (00_scope.md R9, 44_keys_timers_memory.md R250) -/
  legacyMode   : Bool
  /-- parameter VF_WRITE_ORDER, read-only (42_register_alu.md R179) -/
  vfWriteOrder : VfWriteOrder
  /-- parameters FONT_BASE and FONT_DATA, read-only (00_scope.md R10) -/
  font         : Font
  /-- the model's own: how many random bytes were drawn (log 3) -/
  draws        : Nat
  /-- the model's own: what the last operation reported, in order (log 2) -/
  events       : List Event
  deriving DecidableEq, Repr

/-- Why `step` answers a fault instead of a next state. -/
inductive Fault where
  /-- Raised by `step` alone, on a halted engine: it "performs no fetch and changes no state; it returns the recorded
  fault again" (40_cycle_engine.md R122). A fault's ENTRY is no `Fault`: it is a next state (log 1). Safe: the spec itself
  stops here, and no program goes on after it. -/
  | halted (recorded : Option FaultRecord)
  deriving DecidableEq, Repr

/-- Why an instruction has no meaning. No meaning of this model refuses. -/
inductive Refusal where
  /-- Raised by an arm of `exec` whose instruction is not modelled yet; no arm is such. Safe: nothing can be proved of a
  refused instruction's effect. -/
  | notModelled (mnemonic : String)
  deriving DecidableEq, Repr

/-- The state right after session start with an empty ROM (70_reset_and_hazards.md R330): every field 0 or none, pc at
0x200. `legacyMode` comes from the configuration: 0 here (log 6). `vfWriteOrder` is the spec's default (R179, log 5) and
`font` is free (log 4). A program's load is `sessionStart` (Machine/Session.lean; log 7). -/
def State.reset : State where
  memory := []
  V := Vector.replicate 16 0
  I := 0
  pc := 0x200
  stack := Vector.replicate 16 0
  sp := 0
  dt := 0
  st := 0
  keypad := Vector.replicate 16 false
  display := Vector.replicate 32 0
  drawFlag := false
  halted := false
  fault := none
  legacyMode := false
  vfWriteOrder := .listed
  font := Config.font
  draws := 0
  events := []

end Sys2Proof.Machine
end

