-- ==== Sys2Proof/Machine/Memory.lean ====
section
/-! DEFINITION. One byte of memory: what an unlisted address reads as, reading, writing, and the canonical form
(20_memory.md; log 16). -/

namespace Sys2Proof.Machine

/-- What session start leaves at an address, and so what an unlisted address reads as: FONT_DATA at FONT_BASE, which lies
below 0x200, and 0 elsewhere (70_reset_and_hazards.md R330, 20_memory.md R65). -/
def blankByte (f : Font) (a : Nat) : Byte :=
  if a < Config.progBase then
    if h : f.base.val ≤ a ∧ a < f.base.val + 80 then f.glyphs[a - f.base.val]'(by omega) else 0
  else 0

/-- The byte listed for an address. -/
def Memory.lookup : Memory → Nat → Option Byte
  | [], _ => none
  | (k, b) :: m, a => if k = a then some b else Memory.lookup m a

/-- List `b` at `a`, keeping the addresses rising. -/
def Memory.insert : Memory → Nat → Byte → Memory
  | [], a, b => [(a, b)]
  | (k, c) :: m, a, b =>
    if a < k then (a, b) :: (k, c) :: m
    else if a = k then (a, b) :: m
    else (k, c) :: Memory.insert m a b

/-- List nothing at `a`. -/
def Memory.erase : Memory → Nat → Memory
  | [], _ => []
  | (k, c) :: m, a => if k = a then Memory.erase m a else (k, c) :: Memory.erase m a

/-- `memory[a]`. Reading has no side effect (20_memory.md R67). -/
def Memory.read (f : Font) (m : Memory) (a : Nat) : Byte := (m.lookup a).getD (blankByte f a)

/-- `memory[a] <- b`. No address is special (20_memory.md R66, R67). Writing what an unlisted address reads as removes
the entry. -/
def Memory.write (f : Font) (m : Memory) (a : Nat) (b : Byte) : Memory :=
  if b = blankByte f a then m.erase a else m.insert a b

/-- Consecutive one-byte writes, the first at `a` (20_memory.md R61). -/
def Memory.writeBytes (f : Font) : Memory → Nat → List Byte → Memory
  | m, _, [] => m
  | m, a, b :: bs => Memory.writeBytes f (m.write f a b) (a + 1) bs

/-- The canonical form: addresses strictly rising and inside the 4096 bytes, and no entry equal to what an unlisted
address reads as. -/
abbrev Memory.wf (f : Font) (m : Memory) : Prop :=
  m.Pairwise (fun c d => c.1 < d.1) ∧ ∀ c ∈ m, c.1 < Config.memSize ∧ c.2 ≠ blankByte f c.1

end Sys2Proof.Machine
end

