-- ==== Sys2Proof/Machine/Ops.lean ====
section
/-! DEFINITION. The operations the instructions share: state access (00_scope.md R12), the range check (20_memory.md
R64), the display's cells, taking a fault (60_exceptions.md R282), and the end of a step (40_cycle_engine.md R125 to R128). -/

namespace Sys2Proof.Machine

/-! ## State access -/

/-- `V[x]` (00_scope.md R12). None is hardwired (10_state.md R20). -/
def State.getV (s : State) (x : Reg) : Byte := s.V[x.val]

/-- `V[x] <- b` (00_scope.md R12). -/
def State.setV (s : State) (x : Reg) (b : Byte) : State := { s with V := s.V.set x.val b }

/-- `VF`, the flags register (10_state.md R21). -/
abbrev VF : Reg := 15

/-- `MemRead(a, 1)` after the range check has passed (20_memory.md R64). -/
def State.readByte (s : State) (a : Nat) : Byte := s.memory.read s.font a

/-- `MemWrite(a, 1, b)` for consecutive bytes from `a`, after the range check has passed (20_memory.md R61, R64). -/
def State.writeBytes (s : State) (a : Nat) (bs : List Byte) : State :=
  { s with memory := s.memory.writeBytes s.font a bs }

/-- The `count` bytes from `a`. -/
def State.readBytes (s : State) (a : Nat) : Nat → List Byte
  | 0 => []
  | k + 1 => s.readByte a :: State.readBytes s (a + 1) k

/-- `CheckRange(base, count)`: the first address of the `count` from `base` on that lies outside memory (20_memory.md
R64). Addresses are unbounded sums; nothing wraps. -/
def firstOutOfRange (base : Nat) : Nat → Option Nat
  | 0 => none
  | k + 1 => if Config.memSize ≤ base then some base else firstOutOfRange (base + 1) k

/-! ## The display -/

/-- `display[j]`, j = y*64 + x (10_state.md R32). -/
def Display.cell (d : Display) (j : Fin 2048) : Bool := (d[j.val / 64]'(by omega)).getLsbD (j.val % 64)

/-- `display[j] <- display[j] ^ 1` (43_index_jump_random_draw.md R213). -/
def Display.toggle (d : Display) (j : Fin 2048) : Display :=
  d.set (j.val / 64) (d[j.val / 64]'(by omega) ^^^ BitVec.twoPow 64 (j.val % 64)) (by omega)

/-- Every cell 0 (41_control_flow.md R150). -/
def Display.blank : Display := Vector.replicate 32 0

/-! ## Faults -/

/-- The number of a fault (60_exceptions.md R281; 92_eei_decisions.md D2). -/
def FaultCode.number : FaultCode → Nat
  | .stackOverflow => 1
  | .stackUnderflow => 2
  | .memoryOutOfRange => 3
  | .fetchOutOfRange => 4
  | .pcOutOfRange => 5
  | .keyIndexOutOfRange => 6

/-- FAULT ENTRY (60_exceptions.md R282), the one way a fault is taken: none of the step's writes, pc stays, halted and
fault are set, and the fault is reported. There is no return from a fault (R290): no operation on a session undoes this,
and `sessionStart` builds a new state. -/
def State.takeFault (s : State) (r : FaultRecord) : State :=
  { s with halted := true, fault := some r, events := [.fault r] }

/-! ## The end of a step -/

/-- What a handler says of pc (40_cycle_engine.md R125). -/
inductive PcOutcome where
  | auto
  | autoSkip (c : Bool)
  | selfSet (t : Nat)
  | hold
  deriving DecidableEq, Repr

/-- What a handler produces (40_cycle_engine.md R125): a fault with its extra information, or the state with its writes
and a pc outcome. -/
inductive HandlerResult where
  | raises (code : FaultCode) (extra : Option Nat)
  | writes (t : State) (o : PcOutcome)

/-- `pc_next`, an unbounded integer (40_cycle_engine.md R126). -/
def pcNext (pc : Word) : PcOutcome → Nat
  | .auto => pc.toNat + 2
  | .autoSkip c => pc.toNat + 2 + (if c then 2 else 0)
  | .selfSet t => t
  | .hold => pc.toNat

/-- The end of the step of the instruction word `w` begun in `s` (40_cycle_engine.md R127, R129; 60_exceptions.md R282,
R289): the handler's own fault, or PcOutOfRange, or its writes committed with the new pc and nothing to report. -/
def retire (w : Word) (s : State) : HandlerResult → State
  | .raises code extra => s.takeFault ⟨code, s.pc, some w, extra⟩
  | .writes t o =>
    if Config.memSize ≤ pcNext s.pc o then s.takeFault ⟨.pcOutOfRange, s.pc, some w, some (pcNext s.pc o)⟩
    else { t with pc := BitVec.ofNat 16 (pcNext s.pc o), events := [] }

/-- The outcome of an instruction: a next state, a fault's entry among them (log 1). -/
def complete (i : Instr) (s : State) (h : HandlerResult) : Host.Outcome State Fault Refusal :=
  .next (retire (encode i) s h)

/-! ## Fetch and the unknown opcode -/

/-- A step can fetch: both bytes of the word lie in memory (40_cycle_engine.md R123, 20_memory.md R63). -/
def State.canFetch (s : State) : Bool := s.pc.toNat ≤ 0xFFE

/-- `FetchWord(pc)` (20_memory.md R62), from memory as the steps before left it (R71). -/
def State.fetchWord (s : State) : Word := wordOfBytes (s.readByte s.pc.toNat) (s.readByte (s.pc.toNat + 1))

/-- FetchOutOfRange(pc): the record has no word (60_exceptions.md R281, R285). -/
def State.takeFetchFault (s : State) : State := s.takeFault ⟨.fetchOutOfRange, s.pc, none, none⟩

/-- The step of a word that is no instruction (40_cycle_engine.md R128; 60_exceptions.md R286, R289): no write, Auto, and
the diagnostic reported first. -/
def State.unknownOpcode (s : State) (w : Word) : State :=
  let t := retire w s (.writes s .auto)
  { t with events := .unknownOpcode s.pc w :: t.events }

/-- `s` with the two bytes of `w` stored where the next fetch reads them (20_memory.md R62); nothing where no fetch can
happen. -/
def State.placeWord (s : State) (w : Word) : State :=
  if s.canFetch then s.writeBytes s.pc.toNat [highByte w, lowByte w] else s

end Sys2Proof.Machine
end

