-- ==== Sys2Proof/Machine/Operands.lean ====
section
/-! DEFINITION. Operand forms (30_encoding.md R92): immediates zero-extended, addresses through I, sprites, decimal
digits, key indexes. -/

namespace Sys2Proof.Machine

/-- `zext_16(nnn)` (30_encoding.md R92). -/
def zext16 (nnn : Addr12) : Word := nnn.setWidth 16

/-- The base of every data access: I as an unbounded integer (20_memory.md R64). -/
def State.dataBase (s : State) : Nat := s.I.toNat

/-- V0 to Vx, in order: the bytes that Fx55 stores (44_keys_timers_memory.md R251). -/
def State.registersUpTo (s : State) (x : Reg) : List Byte := s.V.toList.take (x.val + 1)

/-- V with V[k], V[k+1], … loaded from a list of bytes: Fx65's loop (44_keys_timers_memory.md R252). A byte for a
register past VF has none to go to and is dropped. -/
def loadRegisters (v : Vector Byte 16) : Nat → List Byte → Vector Byte 16
  | _, [] => v
  | k, b :: bs => loadRegisters (if h : k < 16 then v.set k b else v) (k + 1) bs

/-- I after Fx55 and Fx65: advanced by x + 1 in legacy mode, modulo 65536, unchanged otherwise
(44_keys_timers_memory.md R250). -/
def State.blockIndex (s : State) (x : Reg) : Word :=
  if s.legacyMode then s.I + BitVec.ofNat 16 (x.val + 1) else s.I

/-- The hundreds, tens and ones of a byte (44_keys_timers_memory.md R248). -/
def bcdDigits (b : Byte) : List Byte :=
  [BitVec.ofNat 8 (b.toNat / 100), BitVec.ofNat 8 (b.toNat / 10 % 10), BitVec.ofNat 8 (b.toNat % 10)]

/-- `FONT_BASE + V[x]*5` modulo 65536: no mask to a digit (44_keys_timers_memory.md R247; 92_eei_decisions.md D19). -/
def State.glyphAddress (s : State) (x : Reg) : Word := BitVec.ofNat 16 (s.font.base.val + (s.getV x).toNat * 5)

/-- The lowest pressed key, if any (44_keys_timers_memory.md R243; 92_eei_decisions.md D15). -/
def State.lowestKey (s : State) : Option (Fin 16) := (List.finRange 16).find? (fun k => s.keypad[k.val])

/-! ## Sprites -/

/-- `SpriteBit(b, col)`: bit 7 is the leftmost pixel (43_index_jump_random_draw.md R215, log 13). -/
def spriteBit (b : Byte) (col : Nat) : Bool := (b >>> (7 - col)).getLsbD 0

/-- `PixelIndex(px, py)`: each axis wraps on its own (43_index_jump_random_draw.md R214; 90_conflicts.md C3). -/
def pixelIndex (px py : Nat) : Fin 2048 := ⟨py % 32 * 64 + px % 64, by omega⟩

/-- The cells that one sprite row toggles, left to right (43_index_jump_random_draw.md R213). -/
def rowPixels (x0 y : Nat) (b : Byte) : List (Fin 2048) :=
  ((List.range 8).filter (spriteBit b)).map fun col => pixelIndex (x0 + col) y

/-- The cells that a sprite toggles, row by row from the top (43_index_jump_random_draw.md R213). -/
def spritePixels (x0 : Nat) : Nat → List Byte → List (Fin 2048)
  | _, [] => []
  | y, b :: bs => rowPixels x0 y b ++ spritePixels x0 (y + 1) bs

/-- One toggle of the draw loop: the cell is flipped, and a cell that was on is a collision
(43_index_jump_random_draw.md R213). -/
def togglePixel (p : Display × Bool) (j : Fin 2048) : Display × Bool := (p.1.toggle j, p.2 || p.1.cell j)

/-- The draw loop over the cells of a sprite: the new display and whether a cell went from on to off
(43_index_jump_random_draw.md R213). -/
def blit (d : Display) (js : List (Fin 2048)) : Display × Bool := js.foldl togglePixel (d, false)

end Sys2Proof.Machine
end

