-- ==== Sys2Proof/Machine/ControlFlow.lean ====
section
/-! DEFINITION. Family 0, jumps, calls and skips (41_control_flow.md). -/

namespace Sys2Proof.Machine

/-- 00E0 CLS: every cell 0 and draw_flag set, also when the display was blank (R150; 92_eei_decisions.md D14). -/
def execCls (s : State) : Host.Outcome State Fault Refusal :=
  complete .cls s (.writes { s with display := Display.blank, drawFlag := true } .auto)

/-- 00EE RET: pc and sp from the stack; the popped entry keeps its value (R151; 10_state.md R29). -/
def execRet (s : State) : Host.Outcome State Fault Refusal :=
  complete .ret s <|
    if s.sp.val = 0 then .raises .stackUnderflow none
    else .writes { s with sp := ⟨s.sp.val - 1, by omega⟩ } (.selfSet (s.stack[s.sp.val - 1]'(by omega)).toNat)

/-- 1nnn JP addr (R152). -/
def execJpAddr (nnn : Addr12) (s : State) : Host.Outcome State Fault Refusal :=
  complete (.jpAddr nnn) s (.writes s (.selfSet (zext16 nnn).toNat))

/-- 2nnn CALL addr: pushes the address of the instruction after it, pc + 2 (R153; 90_conflicts.md C4). -/
def execCallAddr (nnn : Addr12) (s : State) : Host.Outcome State Fault Refusal :=
  complete (.callAddr nnn) s <|
    if h : s.sp.val < 16 then
      .writes { s with stack := s.stack.set s.sp.val (s.pc + 2), sp := ⟨s.sp.val + 1, by omega⟩ }
        (.selfSet (zext16 nnn).toNat)
    else .raises .stackOverflow none

/-- 3xkk SE Vx,kk (R154). -/
def execSeVxKk (x : Reg) (kk : Byte) (s : State) : Host.Outcome State Fault Refusal :=
  complete (.seVxKk x kk) s (.writes s (.autoSkip (s.getV x = kk)))

/-- 4xkk SNE Vx,kk (R156). -/
def execSneVxKk (x : Reg) (kk : Byte) (s : State) : Host.Outcome State Fault Refusal :=
  complete (.sneVxKk x kk) s (.writes s (.autoSkip (s.getV x ≠ kk)))

/-- 5xy0 SE Vx,Vy (R155). -/
def execSeVxVy (x y : Reg) (s : State) : Host.Outcome State Fault Refusal :=
  complete (.seVxVy x y) s (.writes s (.autoSkip (s.getV x = s.getV y)))

/-- 9xy0 SNE Vx,Vy (R157). -/
def execSneVxVy (x y : Reg) (s : State) : Host.Outcome State Fault Refusal :=
  complete (.sneVxVy x y) s (.writes s (.autoSkip (s.getV x ≠ s.getV y)))

end Sys2Proof.Machine
end

