-- ==== Sys2Proof/Machine/Flags.lean ====
section
/-! DEFINITION. The flags that VF receives, and the write of a result beside its flag (42_register_alu.md R178, R179). -/

namespace Sys2Proof.Machine

/-- A flag as VF holds it: 1 or 0 (42_register_alu.md R179). -/
def flagByte (c : Bool) : Byte := if c then 1 else 0

/-- 8xy4: the unsigned sum exceeds 255 (42_register_alu.md R186). -/
def carryOut (a b : Byte) : Byte := flagByte (255 < a.toNat + b.toNat)

/-- 8xy5 and 8xy7: NOT-borrow, the minuend STRICTLY greater (42_register_alu.md R187, R189). -/
def notBorrow (a b : Byte) : Byte := flagByte (b.toNat < a.toNat)

/-- 8xy6: bit 0, shifted out (42_register_alu.md R188). -/
def shiftedOutRight (a : Byte) : Byte := a &&& 1

/-- 8xyE: bit 7, shifted out (42_register_alu.md R190). -/
def shiftedOutLeft (a : Byte) : Byte := (a >>> 7) &&& 1

/-- The order in which the source's table lists an instruction's two writes (42_register_alu.md R179): 8xy4 lists Vx
first, 8xy5, 8xy6, 8xy7 and 8xyE list VF first. -/
inductive ListedOrder where
  | resultThenFlag
  | flagThenResult
  deriving DecidableEq, Repr

/-- The flag is the later write under VF_WRITE_ORDER (42_register_alu.md R179). -/
def flagIsLater : VfWriteOrder → ListedOrder → Bool
  | .listed, .resultThenFlag => true
  | .listed, .flagThenResult => false
  | .flagLast, _ => true
  | .resultLast, _ => false

/-- `WriteRF(r, f)`: both writes, and where both name VF the later one remains (42_register_alu.md R179; 00_scope.md
R13). -/
def State.writeRF (s : State) (order : ListedOrder) (x : Reg) (r f : Byte) : State :=
  if flagIsLater s.vfWriteOrder order then (s.setV x r).setV VF f else (s.setV VF f).setV x r

end Sys2Proof.Machine
end

