-- ==== Sys2Proof/Machine/IndexDraw.lean ====
section
/-! DEFINITION. Index load, indexed jump, random and draw (43_index_jump_random_draw.md). -/

namespace Sys2Proof.Machine

/-- Annn LD I,addr (R210). -/
def execLdIAddr (nnn : Addr12) (s : State) : Host.Outcome State Fault Refusal :=
  complete (.ldIAddr nnn) s (.writes { s with I := zext16 nnn } .auto)

/-- Bnnn JP V0,addr: always V0, and the sum is not reduced (R211; 92_eei_decisions.md D6, D26). -/
def execJpV0Addr (nnn : Addr12) (s : State) : Host.Outcome State Fault Refusal :=
  complete (.jpV0Addr nnn) s (.writes s (.selfSet ((s.getV 0).toNat + nnn.toNat)))

/-- Cxkk RND Vx,kk: a fresh draw of the oracle, masked (R212; 92_eei_decisions.md D20, log 3). -/
def execRndVxKk (x : Reg) (kk : Byte) (s : State) : Host.Outcome State Fault Refusal :=
  complete (.rndVxKk x kk) s
    (.writes { s.setV x (Config.randomByte s.draws &&& kk) with draws := s.draws + 1 } .auto)

/-- Dxyn DRW Vx,Vy,n: the sprite of n rows at I is XORed onto the display at (Vx, Vy), VF receives the collision and
draw_flag is set, also for n = 0 (R213 to R215; 92_eei_decisions.md D12, D14). -/
def execDrwVxVyN (x y : Reg) (n : Nat) (s : State) : Host.Outcome State Fault Refusal :=
  complete (.drwVxVyN x y n) s <|
    match firstOutOfRange s.dataBase n with
    | some a => .raises .memoryOutOfRange (some a)
    | none =>
      let drawn := blit s.display (spritePixels (s.getV x).toNat (s.getV y).toNat (s.readBytes s.dataBase n))
      .writes { s.setV VF (flagByte drawn.2) with display := drawn.1, drawFlag := true } .auto

end Sys2Proof.Machine
end

