-- ==== Sys2Proof/Machine/KeysTimersMemory.lean ====
section
/-! DEFINITION. Key tests, timers, index arithmetic, font, BCD and block transfer (44_keys_timers_memory.md). -/

namespace Sys2Proof.Machine

/-- Ex9E SKP Vx: an index above 15 faults before the keypad is read (R239, R240; 60_exceptions.md R287). -/
def execSkpVx (x : Reg) (s : State) : Host.Outcome State Fault Refusal :=
  complete (.skpVx x) s <|
    if h : (s.getV x).toNat < 16 then .writes s (.autoSkip s.keypad[(s.getV x).toNat])
    else .raises .keyIndexOutOfRange (some (s.getV x).toNat)

/-- ExA1 SKNP Vx (R239, R241; 60_exceptions.md R287). -/
def execSknpVx (x : Reg) (s : State) : Host.Outcome State Fault Refusal :=
  complete (.sknpVx x) s <|
    if h : (s.getV x).toNat < 16 then .writes s (.autoSkip (!s.keypad[(s.getV x).toNat]))
    else .raises .keyIndexOutOfRange (some (s.getV x).toNat)

/-- Fx07 LD Vx,DT (R242). -/
def execLdVxDt (x : Reg) (s : State) : Host.Outcome State Fault Refusal :=
  complete (.ldVxDt x) s (.writes (s.setV x s.dt) .auto)

/-- Fx0A LD Vx,K: holds pc until a key is pressed, then loads the lowest pressed key (R243; 92_eei_decisions.md D15). -/
def execLdVxK (x : Reg) (s : State) : Host.Outcome State Fault Refusal :=
  complete (.ldVxK x) s <|
    match s.lowestKey with
    | none => .writes s .hold
    | some k => .writes (s.setV x (BitVec.ofNat 8 k.val)) .auto

/-- Fx15 LD DT,Vx (R244). -/
def execLdDtVx (x : Reg) (s : State) : Host.Outcome State Fault Refusal :=
  complete (.ldDtVx x) s (.writes { s with dt := s.getV x } .auto)

/-- Fx18 LD ST,Vx: no event, whatever it writes (R245; 92_eei_decisions.md D22). -/
def execLdStVx (x : Reg) (s : State) : Host.Outcome State Fault Refusal :=
  complete (.ldStVx x) s (.writes { s with st := s.getV x } .auto)

/-- Fx1E ADD I,Vx: modulo 65536, no flag (R246; 92_eei_decisions.md D31). -/
def execAddIVx (x : Reg) (s : State) : Host.Outcome State Fault Refusal :=
  complete (.addIVx x) s (.writes { s with I := s.I + (s.getV x).setWidth 16 } .auto)

/-- Fx29 LD F,Vx (R247). -/
def execLdFVx (x : Reg) (s : State) : Host.Outcome State Fault Refusal :=
  complete (.ldFVx x) s (.writes { s with I := s.glyphAddress x } .auto)

/-- Fx33 LD B,Vx: all three bytes or none (R248). -/
def execLdBVx (x : Reg) (s : State) : Host.Outcome State Fault Refusal :=
  complete (.ldBVx x) s <|
    match firstOutOfRange s.dataBase 3 with
    | some a => .raises .memoryOutOfRange (some a)
    | none => .writes (s.writeBytes s.dataBase (bcdDigits (s.getV x))) .auto

/-- Fx55 LD [I],Vx: all x + 1 bytes or none (R249 to R251). -/
def execLdMemVx (x : Reg) (s : State) : Host.Outcome State Fault Refusal :=
  complete (.ldMemVx x) s <|
    match firstOutOfRange s.dataBase (x.val + 1) with
    | some a => .raises .memoryOutOfRange (some a)
    | none => .writes { s.writeBytes s.dataBase (s.registersUpTo x) with I := s.blockIndex x } .auto

/-- Fx65 LD Vx,[I]: all x + 1 registers or none (R249, R250, R252). -/
def execLdVxMem (x : Reg) (s : State) : Host.Outcome State Fault Refusal :=
  complete (.ldVxMem x) s <|
    match firstOutOfRange s.dataBase (x.val + 1) with
    | some a => .raises .memoryOutOfRange (some a)
    | none =>
      .writes { s with V := loadRegisters s.V 0 (s.readBytes s.dataBase (x.val + 1)), I := s.blockIndex x } .auto

end Sys2Proof.Machine
end

