-- ==== Sys2Proof/Machine/RegisterAlu.lean ====
section
/-! DEFINITION. Register loads and the arithmetic-logic instructions (42_register_alu.md). Every operand is read before
anything is written (R178, 00_scope.md R13). -/

namespace Sys2Proof.Machine

/-- 6xkk LD Vx,kk (R180). -/
def execLdVxKk (x : Reg) (kk : Byte) (s : State) : Host.Outcome State Fault Refusal :=
  complete (.ldVxKk x kk) s (.writes (s.setV x kk) .auto)

/-- 7xkk ADD Vx,kk: modulo 256, no flag (R181). -/
def execAddVxKk (x : Reg) (kk : Byte) (s : State) : Host.Outcome State Fault Refusal :=
  complete (.addVxKk x kk) s (.writes (s.setV x (s.getV x + kk)) .auto)

/-- 8xy0 LD Vx,Vy (R182). -/
def execLdVxVy (x y : Reg) (s : State) : Host.Outcome State Fault Refusal :=
  complete (.ldVxVy x y) s (.writes (s.setV x (s.getV y)) .auto)

/-- 8xy1 OR Vx,Vy (R183). -/
def execOrVxVy (x y : Reg) (s : State) : Host.Outcome State Fault Refusal :=
  complete (.orVxVy x y) s (.writes (s.setV x (s.getV x ||| s.getV y)) .auto)

/-- 8xy2 AND Vx,Vy (R184). -/
def execAndVxVy (x y : Reg) (s : State) : Host.Outcome State Fault Refusal :=
  complete (.andVxVy x y) s (.writes (s.setV x (s.getV x &&& s.getV y)) .auto)

/-- 8xy3 XOR Vx,Vy (R185). -/
def execXorVxVy (x y : Reg) (s : State) : Host.Outcome State Fault Refusal :=
  complete (.xorVxVy x y) s (.writes (s.setV x (s.getV x ^^^ s.getV y)) .auto)

/-- 8xy4 ADD Vx,Vy with carry (R186). -/
def execAddVxVy (x y : Reg) (s : State) : Host.Outcome State Fault Refusal :=
  complete (.addVxVy x y) s
    (.writes (s.writeRF .resultThenFlag x (s.getV x + s.getV y) (carryOut (s.getV x) (s.getV y))) .auto)

/-- 8xy5 SUB Vx,Vy with NOT-borrow (R187). -/
def execSubVxVy (x y : Reg) (s : State) : Host.Outcome State Fault Refusal :=
  complete (.subVxVy x y) s
    (.writes (s.writeRF .flagThenResult x (s.getV x - s.getV y) (notBorrow (s.getV x) (s.getV y))) .auto)

/-- 8xy6 SHR Vx: Vx itself is shifted, y is ignored (R188; 92_eei_decisions.md D26). -/
def execShrVx (x y : Reg) (s : State) : Host.Outcome State Fault Refusal :=
  complete (.shrVx x y) s
    (.writes (s.writeRF .flagThenResult x (s.getV x >>> 1) (shiftedOutRight (s.getV x))) .auto)

/-- 8xy7 SUBN Vx,Vy: Vy − Vx with NOT-borrow (R189). -/
def execSubnVxVy (x y : Reg) (s : State) : Host.Outcome State Fault Refusal :=
  complete (.subnVxVy x y) s
    (.writes (s.writeRF .flagThenResult x (s.getV y - s.getV x) (notBorrow (s.getV y) (s.getV x))) .auto)

/-- 8xyE SHL Vx: Vx itself is shifted, y is ignored (R190; 92_eei_decisions.md D26). -/
def execShlVx (x y : Reg) (s : State) : Host.Outcome State Fault Refusal :=
  complete (.shlVx x y) s
    (.writes (s.writeRF .flagThenResult x (s.getV x <<< 1) (shiftedOutLeft (s.getV x))) .auto)

end Sys2Proof.Machine
end

