-- ==== Sys2Proof/Machine/Step.lean ====
section
/-! DEFINITION. One `step()` of the engine (40_cycle_engine.md R122 to R129). -/

namespace Sys2Proof.Machine

/-- `step()` (40_cycle_engine.md R129; the priority is 60_exceptions.md R289): a halted engine does nothing and returns the
recorded fault; a pc above 0xFFE faults; otherwise the word at pc is decoded and run, or reported as unknown. -/
def step (s : State) : Host.Outcome State Fault Refusal :=
  if s.halted then .fault (.halted s.fault)
  else if !s.canFetch then .next s.takeFetchFault
  else
    match decode s.fetchWord with
    | .ok i => exec i s
    | .error _ => .next (s.unknownOpcode s.fetchWord)

/-- `s` with the instruction of bits `w` stored where `step` fetches: its high byte at pc, its low byte at pc + 1. Nothing
else is changed; on a halted engine, or with pc above 0xFFE, no step fetches (log 7). -/
def State.withFetchWord (s : State) (nbits w : Nat) : State := s.placeWord (BitVec.ofNat 16 (w % 2 ^ nbits))

end Sys2Proof.Machine
end

