-- ==== Sys2Proof/Machine/Timers.lean ====
section
/-! DEFINITION. The timer decay logic (60_exceptions.md R293 to R296). -/

namespace Sys2Proof.Machine

/-- One timer's decrement, floored at zero (60_exceptions.md R293). -/
def decrement (t : Byte) : Byte := if t = 0 then 0 else t - 1

/-- `tick()`: both timers decrement, and tone-stop is reported when st goes from 1 to 0 (60_exceptions.md R293, R294). On a
halted engine nothing changes and nothing is reported (R296). -/
def State.tick (s : State) : State :=
  if s.halted then { s with events := [] }
  else
    { s with
      dt := decrement s.dt
      st := decrement s.st
      events := if s.st = 1 then [.toneStop] else [] }

/-- `decay_timers` as k ticks in a row, reporting what they report, in order (60_exceptions.md R295; k is the host's
TICKS_OF(elapsed): log 9). -/
def State.decayTimers : Nat → State → State
  | 0, s => { s with events := [] }
  | k + 1, s =>
    let t := s.tick
    let u := State.decayTimers k t
    { u with events := t.events ++ u.events }

end Sys2Proof.Machine
end

