-- ==== Sys2Proof/Machine/HostInterface.lean ====
section
/-! DEFINITION. The operations the block offers to its host beside `step` and `tick` (40_cycle_engine.md R120), and the
host's control loop as a list of operations (R121, 70_reset_and_hazards.md R342). -/

namespace Sys2Proof.Machine

/-- `key_write(k, b)`; allowed on a halted engine too (60_exceptions.md R297). -/
def State.keyWrite (s : State) (k : Fin 16) (b : Bool) : State :=
  { s with keypad := s.keypad.set k.val b, events := [] }

/-- `draw_ack()`: the renderer clears draw_flag (60_exceptions.md R298). -/
def State.drawAck (s : State) : State := { s with drawFlag := false, events := [] }

/-- `read_display()`: the 2048 cells in index order, and draw_flag (60_exceptions.md R298). -/
def State.readDisplay (s : State) : List Bool × Bool :=
  ((List.finRange 2048).map s.display.cell, s.drawFlag)

/-- What `dump()` returns: all Machine State fields (60_exceptions.md R299). -/
structure Dump where
  memory     : List Byte
  V          : Vector Byte 16
  I          : Word
  pc         : Word
  stack      : Vector Word 16
  sp         : Nat
  dt         : Byte
  st         : Byte
  keypad     : Vector Bool 16
  display    : List Bool
  drawFlag   : Bool
  halted     : Bool
  fault      : Option FaultRecord
  legacyMode : Bool
  deriving DecidableEq, Repr

/-- `dump()`: a read-only snapshot, allowed on a halted engine (60_exceptions.md R299). -/
def State.dump (s : State) : Dump where
  memory := s.readBytes 0 Config.memSize
  V := s.V
  I := s.I
  pc := s.pc
  stack := s.stack
  sp := s.sp.val
  dt := s.dt
  st := s.st
  keypad := s.keypad
  display := s.readDisplay.1
  drawFlag := s.drawFlag
  halted := s.halted
  fault := s.fault
  legacyMode := s.legacyMode

/-- One operation of the host's control loop (40_cycle_engine.md R120, R121). -/
inductive HostOp where
  | step
  /-- `decay_timers`, as the number of ticks it performs (60_exceptions.md R295) -/
  | decayTimers (ticks : Nat)
  | keyWrite (k : Fin 16) (b : Bool)
  | drawAck
  | readDisplay
  | dump
  deriving DecidableEq, Repr

/-- The state an operation leaves. A step on a halted engine leaves the Machine State as it is and reports the recorded
fault again (40_cycle_engine.md R122); the two reads change nothing (60_exceptions.md R298, R299). -/
def HostOp.perform (s : State) : HostOp → State
  | .step =>
    match Sys2Proof.Machine.step s with
    | .next t => t
    | .fault (.halted recorded) => { s with events := (recorded.map Event.fault).toList }
    | .refused _ => s
  | .decayTimers k => s.decayTimers k
  | .keyWrite k b => s.keyWrite k b
  | .drawAck => s.drawAck
  | .readDisplay => { s with events := [] }
  | .dump => { s with events := [] }

/-- A host schedule: its operations one after another, in any interleaving (40_cycle_engine.md R121,
70_reset_and_hazards.md R342). -/
def runHost : List HostOp → State → State
  | [], s => s
  | op :: ops, s => runHost ops (op.perform s)

end Sys2Proof.Machine
end

