-- ==== Sys2Proof/Machine/Session.lean ====
section
/-! DEFINITION. Session start, the only reset (70_reset_and_hazards.md R330, R331, R333). -/

namespace Sys2Proof.Machine

/-- The configuration of a session (00_scope.md R9). -/
structure SessionConfig where
  legacyMode : Bool
  clockRate  : Int
  deriving DecidableEq, Repr

/-- Why a session does not start (70_reset_and_hazards.md R331). -/
inductive LoadError where
  /-- a zero or negative clock rate -/
  | malformedConfiguration
  /-- a ROM longer than 3584 bytes -/
  | romTooLarge
  deriving DecidableEq, Repr

/-- `session_start(config, rom)` for the parameters `order` and `font`: a rejected call creates no state; an accepted one
leaves every field 0, the font at FONT_BASE (through `blankByte`), the ROM at 0x200, pc at 0x200 (70_reset_and_hazards.md
R330, R331). -/
def sessionStart (order : VfWriteOrder) (font : Font) (config : SessionConfig) (rom : List Byte) :
    Except LoadError State :=
  if config.clockRate ≤ 0 then .error .malformedConfiguration
  else if Config.romMax < rom.length then .error .romTooLarge
  else
    .ok { State.reset with
      memory := Memory.writeBytes font [] Config.progBase rom
      legacyMode := config.legacyMode
      vfWriteOrder := order
      font := font }

end Sys2Proof.Machine
end

