-- ==== Sys2Proof/Safety.lean ====
section
/-! DEFINITION. The invariant of the Machine State, and what a safe run is. -/

namespace Sys2Proof.Machine

/-- What holds of every state that session start and the operations lead to. -/
structure State.Inv (s : State) : Prop where
  /-- "`pc` must remain within `[0, 4096)` after every advance" (10_state.md R26) -/
  pcInRange : s.pc.toNat < 0x1000
  /-- memory is in its canonical form (log 16) -/
  memoryWf : s.memory.wf s.font
  /-- every live return address was pushed by a CALL below 0xFFF (41_control_flow.md R151, R153) -/
  liveReturns : ∀ k, (h : k < s.sp.val) → 2 ≤ (s.stack[k]'(by omega)).toNat ∧ (s.stack[k]'(by omega)).toNat ≤ 0x1000
  /-- halted and fault are set together (60_exceptions.md R282) -/
  haltedIffFault : s.halted = s.fault.isSome
  /-- "pc keeps the address of the faulting instruction" (60_exceptions.md R282) -/
  faultAtPc : ∀ r, s.fault = some r → r.pc = s.pc

/-- The next step runs and does not fault. -/
def State.StepsSafely (s : State) : Prop := ∃ t, step s = .next t ∧ t.halted = false

/-- The next k steps run and none of them faults (70_reset_and_hazards.md R340: a run is stated "after k steps"). -/
def State.RunsSafely : Nat → State → Prop
  | 0, _ => True
  | k + 1, s => ∃ t, step s = .next t ∧ t.halted = false ∧ State.RunsSafely k t

end Sys2Proof.Machine
end

