-- ==== Sys2Proof/WellFormed.lean ====
section
/-! DEFINITION. Which terms of `Instr` the encoding admits. -/

namespace Sys2Proof

/-- Registers, bytes and addresses are bounded by their types; the one operand held as a number is the sprite height,
"an unsigned count 0 to 15" (30_encoding.md R92, 43_index_jump_random_draw.md R213). -/
def Instr.wellFormed : Instr → Bool
  | .drwVxVyN _ _ n => n < 16
  | .cls | .ret | .jpAddr _ | .callAddr _ | .seVxKk _ _ | .sneVxKk _ _ | .seVxVy _ _ | .ldVxKk _ _ | .addVxKk _ _
  | .ldVxVy _ _ | .orVxVy _ _ | .andVxVy _ _ | .xorVxVy _ _ | .addVxVy _ _ | .subVxVy _ _ | .shrVx _ _
  | .subnVxVy _ _ | .shlVx _ _ | .sneVxVy _ _ | .ldIAddr _ | .jpV0Addr _ | .rndVxKk _ _ | .skpVx _ | .sknpVx _
  | .ldVxDt _ | .ldVxK _ | .ldDtVx _ | .ldStVx _ | .addIVx _ | .ldFVx _ | .ldBVx _ | .ldMemVx _ | .ldVxMem _ => true

/-- The instruction is one that some word encodes. -/
abbrev Instr.WellFormed (i : Instr) : Prop := i.wellFormed = true

end Sys2Proof
end

