-- ==== Sys2Proof/Certificates/Slice0/Obligations.lean ====
section
/-! DEFINITION. The statements for the provers, from the numbered rules of spec/. Each docstring names the rule or section
a statement formalises. A marked choice of the spec (D<n> of 92_eei_decisions.md) that a statement rests on is named too. -/

open Sys2Proof Sys2Proof.Machine

/-! ## Words the statements share -/

/-- The nibble that names a register. -/
def Sys2Proof.Claims.nib (x : Reg) : Nibble := BitVec.ofFin x

/-- Fault entry written out: nothing but halted, fault and the report changes (60_exceptions.md R281, R282). -/
def Sys2Proof.Claims.faulted (s : State) (i : Instr) (code : FaultCode) (extra : Option Nat) : State :=
  { s with
    halted := true
    fault := some { code := code, pc := s.pc, w := some (encode i), extra := extra }
    events := [Event.fault { code := code, pc := s.pc, w := some (encode i), extra := extra }] }

/-- The instruction completes with the state `t` and the new pc `next`: `exec` ANSWERS `t` with pc = next and nothing to
report when next lies in memory, and PcOutOfRange with nothing of `t` when it does not (40_cycle_engine.md R126, R127). The
clause of PcOutOfRange is what each instruction's rule lists under "Exceptions"; that a fault's entry is a next state, and
that `events` holds what the step reports, are the model's forms for R282 and R120 (log 1, log 2). -/
def Sys2Proof.Claims.CompletesAt (i : Instr) (s t : State) (next : Nat) : Prop :=
  (next < 0x1000 → exec i s = .next { t with pc := BitVec.ofNat 16 next, events := [] }) ∧
  (0x1000 ≤ next → exec i s = .next (Sys2Proof.Claims.faulted s i .pcOutOfRange (some next)))

/-- The instruction completes with the state `t` and the plain advance (outcome Auto, 40_cycle_engine.md R125). -/
def Sys2Proof.Claims.CompletesAuto (i : Instr) (s t : State) : Prop :=
  Sys2Proof.Claims.CompletesAt i s t (s.pc.toNat + 2)

/-- The instruction changes nothing but pc, and skips one more word exactly when `c` (40_cycle_engine.md R125, R126). -/
def Sys2Proof.Claims.SkipsWhen (i : Instr) (s : State) (c : Prop) : Prop :=
  (c → Sys2Proof.Claims.CompletesAt i s s (s.pc.toNat + 4)) ∧
  (¬c → Sys2Proof.Claims.CompletesAt i s s (s.pc.toNat + 2))

/-- V after a result `r` for Vx and a flag `f` for VF (42_register_alu.md R179). Where x = F the two writes name one
register, and VF_WRITE_ORDER says which value stays; under LISTED the flag stays exactly where `listedKeepsFlag`. -/
def Sys2Proof.Claims.withFlag (s : State) (x : Reg) (r f : Nat) (listedKeepsFlag : Bool) : Vector Byte 16 :=
  if x = 15 then
    s.V.set 15 (BitVec.ofNat 8 (match s.vfWriteOrder with
      | .listed => if listedKeepsFlag then f else r
      | .flagLast => f
      | .resultLast => r))
  else (s.V.set x.val (BitVec.ofNat 8 r)).set 15 (BitVec.ofNat 8 f)

open Sys2Proof.Claims

/-! ## Encoding (30_encoding.md) -/

/-- A few words written out from the patterns of 30_encoding.md R95 decode to what they stand for. -/
def Obligations.SampleWordsDecode : Prop :=
  decode 0x00E0 = .ok .cls ∧ decode 0x00EE = .ok .ret ∧ decode 0x1234 = .ok (.jpAddr 0x234) ∧
  decode 0x3A42 = .ok (.seVxKk 0xA 0x42) ∧ decode 0x8AB4 = .ok (.addVxVy 0xA 0xB) ∧
  decode 0x8126 = .ok (.shrVx 1 2) ∧ decode 0xA123 = .ok (.ldIAddr 0x123) ∧ decode 0xD12F = .ok (.drwVxVyN 1 2 15) ∧
  decode 0xE59E = .ok (.skpVx 5) ∧ decode 0xF365 = .ok (.ldVxMem 3) ∧
  decode 0x01E0 = .error (.unknownOpcode 0x01E0) ∧ decode 0x5121 = .error (.unknownOpcode 0x5121) ∧
  decode 0x8128 = .error (.unknownOpcode 0x8128)

/-- Decoding the encoding of a well-formed instruction gives it back, with every operand at every value. -/
def Obligations.EncodedInstructionDecodesBack : Prop := ∀ i : Instr, i.WellFormed → decode (encode i) = .ok i

/-- A word that decodes, decodes to a well-formed instruction whose encoding is that word: no bit is dropped. -/
def Obligations.DecodedWordEncodesBack : Prop :=
  ∀ (w : Word) (i : Instr), decode w = .ok i → i.WellFormed ∧ encode i = w

/-- Dispatch by fields agrees with the opcode table: a word that decodes matches exactly one row of opcode_table.json, its
instruction's; a word that does not, matches none (30_encoding.md R96, which the spec derives from R95). -/
def Obligations.DispatchAgreesWithOpcodeTable : Prop :=
  ∀ w : Word, match decode w with
    | .ok i => ∃ r, opcodeRows.filter (fun r => r.matchesWord w) = [r] ∧ r.mnemonic = i.mnemonic
    | .error e => opcodeRows.filter (fun r => r.matchesWord w) = [] ∧ e = .unknownOpcode w

/-- The unknown-opcode space, family by family (30_encoding.md R97; the strict matches are D24, D25). -/
def Obligations.UnknownOpcodeSpaceByFamily : Prop :=
  ∀ w : Word, decode w = .error (.unknownOpcode w) ↔
    (fieldOp w = 0x0 ∧ w ≠ 0x00E0 ∧ w ≠ 0x00EE) ∨
    (fieldOp w = 0x5 ∧ fieldN w ≠ 0x0) ∨
    (fieldOp w = 0x8 ∧ fieldN w ∈ [0x8, 0x9, 0xA, 0xB, 0xC, 0xD, 0xF]) ∨
    (fieldOp w = 0x9 ∧ fieldN w ≠ 0x0) ∨
    (fieldOp w = 0xE ∧ fieldKk w ∉ [0x9E, 0xA1]) ∨
    (fieldOp w = 0xF ∧ fieldKk w ∉ [0x07, 0x0A, 0x15, 0x18, 0x1E, 0x29, 0x33, 0x55, 0x65])

/-! ## The step (40_cycle_engine.md) -/

/-- A running engine with pc ≤ 0xFFE runs the instruction that the two bytes at pc, pc + 1 (big-endian) decode to: `step`
is `exec` of it at that same state. With pc above 0xFFE it takes FetchOutOfRange (40_cycle_engine.md R123, R124;
20_memory.md R62). -/
def Obligations.StepRunsTheDecodedInstruction : Prop :=
  ∀ s : State, s.halted = false →
    (∀ i, s.pc.toNat ≤ 0xFFE → decode (s.readByte s.pc.toNat ++ s.readByte (s.pc.toNat + 1)) = .ok i →
      step s = exec i s) ∧
    (0xFFE < s.pc.toNat →
      step s = .next { s with
        halted := true
        fault := some { code := .fetchOutOfRange, pc := s.pc, w := none, extra := none }
        events := [Event.fault { code := .fetchOutOfRange, pc := s.pc, w := none, extra := none }] })

/-- A step on a halted engine answers the recorded fault and no next state, whatever stands at pc (40_cycle_engine.md
R122). What a host's schedule then keeps is `HaltedSessionIsFinal`. -/
def Obligations.StepOnHaltedEngineReturnsRecordedFault : Prop :=
  ∀ s : State, s.halted = true → step s = .fault (.halted s.fault)

/-- A word that is no instruction is a no-op that advances pc by 2 and reports UnknownOpcode(pc, w) (40_cycle_engine.md
R128). -/
def Obligations.UnknownOpcodeIsReportedNoOp : Prop :=
  ∀ (s : State) (w : Word) (e : DecodeError), s.halted = false → s.pc.toNat + 2 < 0x1000 →
    w = s.readByte s.pc.toNat ++ s.readByte (s.pc.toNat + 1) → decode w = .error e →
    step s = .next { s with pc := s.pc + 2, events := [Event.unknownOpcode s.pc w] }

/-- An unknown opcode at 0xFFE reports its diagnostic first and then takes PcOutOfRange (60_exceptions.md R289; D28). -/
def Obligations.UnknownOpcodeAtTopReportsDiagnosticThenFault : Prop :=
  ∀ (s : State) (w : Word) (e : DecodeError), s.halted = false → s.pc = 0xFFE →
    w = s.readByte 0xFFE ++ s.readByte 0xFFF → decode w = .error e →
    step s = .next { s with
      halted := true
      fault := some { code := .pcOutOfRange, pc := 0xFFE, w := some w, extra := some 0x1000 }
      events := [Event.unknownOpcode 0xFFE w,
        Event.fault { code := .pcOutOfRange, pc := 0xFFE, w := some w, extra := some 0x1000 }] }

/-- `step` answers a next state for every state whose engine runs, and no instruction is refused; the one fault `step`
answers is the halted engine's (40_cycle_engine.md section 2; the form of a fault's entry is log 1). -/
def Obligations.EveryStepOfARunningEngineAnswers : Prop :=
  (∀ s : State, s.halted = false → ∃ t, step s = .next t) ∧ (∀ i s, ∃ t, exec i s = .next t)

/-! ## Faults (60_exceptions.md) -/

/-- A step that faults commits none of its writes: what it leaves differs from what it found in halted, fault and the
report alone (60_exceptions.md R282; D3). -/
def Obligations.FaultEntryIsPrecise : Prop :=
  ∀ s t : State, s.halted = false → step s = .next t → t.halted = true →
    ∃ r : FaultRecord, t = { s with halted := true, fault := some r, events := t.events } ∧ r.pc = s.pc ∧
      Event.fault r ∈ t.events

/-- How many consecutive bytes of data from I on an instruction accesses (20_memory.md R60, R64; 44_keys_timers_memory.md
R249). -/
def Sys2Proof.Claims.accessCount : Instr → Nat
  | .drwVxVyN _ _ n => n
  | .ldBVx _ => 3
  | .ldMemVx x | .ldVxMem x => x.val + 1
  | .cls | .ret | .jpAddr _ | .callAddr _ | .seVxKk _ _ | .sneVxKk _ _ | .seVxVy _ _ | .sneVxVy _ _ | .ldVxKk _ _
  | .addVxKk _ _ | .ldVxVy _ _ | .orVxVy _ _ | .andVxVy _ _ | .xorVxVy _ _ | .addVxVy _ _ | .subVxVy _ _ | .shrVx _ _
  | .subnVxVy _ _ | .shlVx _ _ | .ldIAddr _ | .jpV0Addr _ | .rndVxKk _ _ | .skpVx _ | .sknpVx _ | .ldVxDt _ | .ldVxK _
  | .ldDtVx _ | .ldStVx _ | .addIVx _ | .ldFVx _ => 0

/-- pc_next, the unbounded new pc of each instruction that has no fault of its own (40_cycle_engine.md R125, R126;
41_control_flow.md R158). -/
def Sys2Proof.Claims.newPc (s : State) : Instr → Nat
  | .ret => (s.stack[s.sp.val - 1]'(by omega)).toNat
  | .jpAddr nnn | .callAddr nnn => nnn.toNat
  | .jpV0Addr nnn => (s.V[0]).toNat + nnn.toNat
  | .seVxKk x kk => s.pc.toNat + (if s.V[x] = kk then 4 else 2)
  | .sneVxKk x kk => s.pc.toNat + (if s.V[x] ≠ kk then 4 else 2)
  | .seVxVy x y => s.pc.toNat + (if s.V[x] = s.V[y] then 4 else 2)
  | .sneVxVy x y => s.pc.toNat + (if s.V[x] ≠ s.V[y] then 4 else 2)
  | .skpVx x => s.pc.toNat + (if ∃ k : Fin 16, s.V[x].toNat = k.val ∧ s.keypad[k] = true then 4 else 2)
  | .sknpVx x => s.pc.toNat + (if ∃ k : Fin 16, s.V[x].toNat = k.val ∧ s.keypad[k] = false then 4 else 2)
  | .ldVxK _ => s.pc.toNat + (if ∃ k : Fin 16, s.keypad[k] = true then 2 else 0)
  | .cls | .ldVxKk _ _ | .addVxKk _ _ | .ldVxVy _ _ | .orVxVy _ _ | .andVxVy _ _ | .xorVxVy _ _ | .addVxVy _ _
  | .subVxVy _ _ | .shrVx _ _ | .subnVxVy _ _ | .shlVx _ _ | .ldIAddr _ | .rndVxKk _ _ | .drwVxVyN _ _ _ | .ldVxDt _
  | .ldDtVx _ | .ldStVx _ | .addIVx _ | .ldFVx _ | .ldBVx _ | .ldMemVx _ | .ldVxMem _ => s.pc.toNat + 2

/-- The faults an instruction can take are those of the table of 60_exceptions.md R281, each under its own condition and
with its own extra information: StackOverflow, StackUnderflow and KeyIndexOutOfRange as listed; for MemoryOutOfRange the
extra is an address I + k that the instruction accesses, 0x1000 or more, and every address it accesses below that one lies
inside memory (the first such address); for PcOutOfRange it is the instruction's own pc_next, 0x1000 or more, and no address
it accesses lies outside memory, for its own fault comes first (R289). D2 names the codes. -/
def Obligations.FaultCausesAreThoseOfTheTable : Prop :=
  ∀ (i : Instr) (s t : State) (r : FaultRecord), s.fault = none → exec i s = .next t → t.fault = some r →
    r.pc = s.pc ∧ r.w = some (encode i) ∧
    match r.code with
    | .stackOverflow => (∃ nnn, i = .callAddr nnn) ∧ s.sp = 16 ∧ r.extra = none
    | .stackUnderflow => i = .ret ∧ s.sp = 0 ∧ r.extra = none
    | .memoryOutOfRange =>
        ((∃ x y n, i = .drwVxVyN x y n) ∨ ∃ x, i = .ldBVx x ∨ i = .ldMemVx x ∨ i = .ldVxMem x) ∧
        ∃ k, k < accessCount i ∧ r.extra = some (s.I.toNat + k) ∧ 0x1000 ≤ s.I.toNat + k ∧
          ∀ j, j < k → s.I.toNat + j < 0x1000
    | .fetchOutOfRange => False
    | .pcOutOfRange =>
        r.extra = some (newPc s i) ∧ 0x1000 ≤ newPc s i ∧ ∀ k, k < accessCount i → s.I.toNat + k < 0x1000
    | .keyIndexOutOfRange => ∃ x, (i = .skpVx x ∨ i = .sknpVx x) ∧ 15 < s.V[x].toNat ∧ r.extra = some s.V[x].toNat

/-- MemoryOutOfRange is taken by DRW, LD B, LD [I] and LD Vx,[I] whenever an address they would access is 0x1000 or more,
before anything is written, and names the lowest such address; a DRW of no rows cannot take it (60_exceptions.md R283). -/
def Obligations.MemoryRangeFaultNamesLowestAddress : Prop :=
  (∀ x y n s, n ≠ 0 → 0x1000 < s.I.toNat + n →
    exec (.drwVxVyN x y n) s = .next (faulted s (.drwVxVyN x y n) .memoryOutOfRange (some (max s.I.toNat 0x1000)))) ∧
  (∀ x s, 0x1000 < s.I.toNat + 3 →
    exec (.ldBVx x) s = .next (faulted s (.ldBVx x) .memoryOutOfRange (some (max s.I.toNat 0x1000)))) ∧
  (∀ x s, 0x1000 < s.I.toNat + (x.val + 1) →
    exec (.ldMemVx x) s = .next (faulted s (.ldMemVx x) .memoryOutOfRange (some (max s.I.toNat 0x1000)))) ∧
  (∀ x s, 0x1000 < s.I.toNat + (x.val + 1) →
    exec (.ldVxMem x) s = .next (faulted s (.ldVxMem x) .memoryOutOfRange (some (max s.I.toNat 0x1000)))) ∧
  (∀ x y s, ∃ t, CompletesAuto (.drwVxVyN x y 0) s t)

/-! ## Invariants -/

/-- Every step keeps the invariant: pc in memory, memory canonical, live return addresses in range, halted and fault
together, the fault's pc the machine's (10_state.md R26, R28; 60_exceptions.md R282; log 16). -/
def Obligations.StepKeepsInvariant : Prop := ∀ s t : State, s.Inv → step s = .next t → t.Inv

/-- The state after session start meets the invariant. -/
def Obligations.ResetMeetsInvariant : Prop := State.reset.Inv

/-- The state of every accepted session start meets the invariant and holds the configuration and the parameters it was
given (70_reset_and_hazards.md R330). -/
def Obligations.AcceptedSessionStartMeetsInvariant : Prop :=
  ∀ (order : VfWriteOrder) (font : Font) (config : SessionConfig) (rom : List Byte) (s : State),
    sessionStart order font config rom = .ok s →
    s.Inv ∧ s.legacyMode = config.legacyMode ∧ s.font = font ∧ s.vfWriteOrder = order

/-- Every operation of the host, a step among them, keeps the invariant from EVERY state that meets it, and never changes
the configuration or the parameters (40_cycle_engine.md R120, R121; 00_scope.md R9). That a host's operation is a `HostOp`
is the model's form (log 8). -/
def Obligations.EveryHostOperationKeepsInvariant : Prop :=
  ∀ (s : State) (op : HostOp), s.Inv →
    (op.perform s).Inv ∧ (op.perform s).legacyMode = s.legacyMode ∧ (op.perform s).font = s.font ∧
      (op.perform s).vfWriteOrder = s.vfWriteOrder

/-- From any accepted session start, every schedule of host operations, in every interleaving of steps, ticks, key writes
and renders, stays within the invariant and keeps the configuration and the parameters (40_cycle_engine.md R121;
70_reset_and_hazards.md R342; the form of a schedule is log 8). -/
def Obligations.EveryHostScheduleKeepsInvariant : Prop :=
  ∀ (order : VfWriteOrder) (font : Font) (config : SessionConfig) (rom : List Byte) (s : State) (ops : List HostOp),
    sessionStart order font config rom = .ok s →
    (runHost ops s).Inv ∧ (runHost ops s).legacyMode = config.legacyMode ∧ (runHost ops s).font = font ∧
      (runHost ops s).vfWriteOrder = order

/-- A fault ends the session: whatever the host then does, halted and fault stay, and no register, memory, stack, timer or
display cell changes any more (60_exceptions.md R290, with R296 and 40_cycle_engine.md R122). -/
def Obligations.HaltedSessionIsFinal : Prop :=
  ∀ (s : State) (ops : List HostOp), s.halted = true →
    let t := runHost ops s
    t.halted = true ∧ t.fault = s.fault ∧ t.memory = s.memory ∧ t.V = s.V ∧ t.I = s.I ∧ t.pc = s.pc ∧
      t.stack = s.stack ∧ t.sp = s.sp ∧ t.dt = s.dt ∧ t.st = s.st ∧ t.display = s.display

/-! ## Frames: what an instruction leaves unchanged -/

/-- The registers an instruction may write: its destination, VF where the spec says it receives a flag, V0 to Vx for the
block load (10_state.md R20, R21). -/
def Sys2Proof.Claims.mayWriteV : Instr → Reg → Prop
  | .ldVxKk x _, r | .addVxKk x _, r | .ldVxVy x _, r | .orVxVy x _, r | .andVxVy x _, r | .xorVxVy x _, r
  | .rndVxKk x _, r | .ldVxDt x, r | .ldVxK x, r => r = x
  | .addVxVy x _, r | .subVxVy x _, r | .shrVx x _, r | .subnVxVy x _, r | .shlVx x _, r => r = x ∨ r = 15
  | .drwVxVyN _ _ _, r => r = 15
  | .ldVxMem x, r => r ≤ x
  | .cls, _ | .ret, _ | .jpAddr _, _ | .callAddr _, _ | .seVxKk _ _, _ | .sneVxKk _ _, _ | .seVxVy _ _, _
  | .sneVxVy _ _, _ | .ldIAddr _, _ | .jpV0Addr _, _ | .skpVx _, _ | .sknpVx _, _ | .ldDtVx _, _ | .ldStVx _, _
  | .addIVx _, _ | .ldFVx _, _ | .ldBVx _, _ | .ldMemVx _, _ => False

/-- Every register but an instruction's destination, and VF where it receives a flag, is unchanged (10_state.md R20, R21). -/
def Obligations.OnlyDestinationRegistersChange : Prop :=
  ∀ (i : Instr) (s t : State), exec i s = .next t → ∀ r : Reg, ¬mayWriteV i r → t.getV r = s.getV r

/-- I is unchanged but by Annn, Fx1E, Fx29, and by Fx55 and Fx65 in legacy mode (10_state.md section 1). -/
def Obligations.OnlyIndexInstructionsChangeI : Prop :=
  ∀ (i : Instr) (s t : State), exec i s = .next t → t.I ≠ s.I →
    (∃ nnn, i = .ldIAddr nnn) ∨ (∃ x, i = .addIVx x) ∨ (∃ x, i = .ldFVx x) ∨
    (s.legacyMode = true ∧ ∃ x, i = .ldMemVx x ∨ i = .ldVxMem x)

/-- The bytes an instruction stores to: LD B the three bytes at the data base, LD [I] the x + 1 bytes there; every other
form stores nothing (20_memory.md R60). -/
def Sys2Proof.Claims.storesTo (s : State) : Instr → Nat → Prop
  | .ldBVx _, a => s.dataBase ≤ a ∧ a < s.dataBase + 3
  | .ldMemVx x, a => s.dataBase ≤ a ∧ a < s.dataBase + (x.val + 1)
  | .cls, _ | .ret, _ | .jpAddr _, _ | .callAddr _, _ | .seVxKk _ _, _ | .sneVxKk _ _, _ | .seVxVy _ _, _
  | .ldVxKk _ _, _ | .addVxKk _ _, _ | .ldVxVy _ _, _ | .orVxVy _ _, _ | .andVxVy _ _, _ | .xorVxVy _ _, _
  | .addVxVy _ _, _ | .subVxVy _ _, _ | .shrVx _ _, _ | .subnVxVy _ _, _ | .shlVx _ _, _ | .sneVxVy _ _, _
  | .ldIAddr _, _ | .jpV0Addr _, _ | .rndVxKk _ _, _ | .drwVxVyN _ _ _, _ | .skpVx _, _ | .sknpVx _, _
  | .ldVxDt _, _ | .ldVxK _, _ | .ldDtVx _, _ | .ldStVx _, _ | .addIVx _, _ | .ldFVx _, _ | .ldVxMem _, _ => False

/-- Every byte of memory outside the stored bytes reads as before, for every instruction (20_memory.md R60, R67). -/
def Obligations.OnlyStoredBytesChange : Prop :=
  ∀ (i : Instr) (s t : State), exec i s = .next t → ∀ a : Nat, ¬storesTo s i a → t.readByte a = s.readByte a

/-- No instruction reaches the stack but CALL, which writes the entry at sp alone, and RET, which writes none
(10_state.md R28, R29). -/
def Obligations.OnlyCallAndRetReachTheStack : Prop :=
  ∀ (i : Instr) (s t : State), exec i s = .next t →
    (∀ k : Fin 16, t.stack[k] ≠ s.stack[k] → (∃ nnn, i = .callAddr nnn) ∧ k.val = s.sp.val) ∧
    (t.sp ≠ s.sp → (∃ nnn, i = .callAddr nnn) ∨ i = .ret)

/-- dt is written by Fx15 alone, st by Fx18 alone, the display and draw_flag by 00E0 and Dxyn alone, and draw_flag is never
cleared; the keypad, the configuration and the parameters are never written (10_state.md R30 to R34; 40_cycle_engine.md
R130). -/
def Obligations.TimersDisplayAndInputsFrame : Prop :=
  ∀ (i : Instr) (s t : State), exec i s = .next t →
    (t.dt ≠ s.dt → ∃ x, i = .ldDtVx x) ∧ (t.st ≠ s.st → ∃ x, i = .ldStVx x) ∧
    (t.display ≠ s.display ∨ t.drawFlag ≠ s.drawFlag → i = .cls ∨ ∃ x y n, i = .drwVxVyN x y n) ∧
    (s.drawFlag = true → t.drawFlag = true) ∧
    t.keypad = s.keypad ∧ t.legacyMode = s.legacyMode ∧ t.font = s.font ∧ t.vfWriteOrder = s.vfWriteOrder

/-- No instruction but Cxkk depends on the random oracle: with another count of draws, every other instruction does the
same (40_cycle_engine.md R131). -/
def Obligations.OnlyRndReadsTheOracle : Prop :=
  ∀ (i : Instr) (s t : State) (k : Nat), (∀ x kk, i ≠ .rndVxKk x kk) → exec i s = .next t →
    exec i { s with draws := k } = .next { t with draws := k } ∧ t.draws = s.draws

/-! ## Family 0, jumps, calls, skips (41_control_flow.md) -/

/-- CLS leaves every cell 0 and draw_flag set, and changes nothing else but pc (R150; D14 on a blank display). -/
def Obligations.ClsClearsDisplay : Prop :=
  decode 0x00E0 = .ok .cls ∧
  ∀ s : State, ∃ d : Display, (∀ j, d.cell j = false) ∧ CompletesAuto .cls s { s with display := d, drawFlag := true }

/-- RET takes pc from the top entry, which keeps its value, and decrements sp; with an empty stack it takes StackUnderflow,
and with a popped value of 0x1000 or more PcOutOfRange (R151). -/
def Obligations.RetPopsReturnAddress : Prop :=
  decode 0x00EE = .ok .ret ∧
  (∀ s : State, s.sp.val = 0 → exec .ret s = .next (faulted s .ret .stackUnderflow none)) ∧
  (∀ (s : State) (k : Nat) (h : k < 16), s.sp.val = k + 1 →
    CompletesAt .ret s { s with sp := ⟨k, Nat.lt_succ_of_lt h⟩ } (s.stack[k]).toNat)

/-- JP sets pc to nnn and changes nothing else; it takes no fault (R152). -/
def Obligations.JumpSetsPc : Prop :=
  ∀ (nnn : Addr12) (s : State),
    decode (0x1#4 ++ nnn) = .ok (.jpAddr nnn) ∧
    exec (.jpAddr nnn) s = .next { s with pc := BitVec.ofNat 16 nnn.toNat, events := [] }

/-- CALL pushes pc + 2 at sp, increments sp and sets pc to nnn; with sp = 16 it takes StackOverflow (R153; the pushed
value is D8). -/
def Obligations.CallPushesReturnAddress : Prop :=
  ∀ (nnn : Addr12) (s : State),
    decode (0x2#4 ++ nnn) = .ok (.callAddr nnn) ∧
    (∀ (k : Nat) (h : k < 16), s.sp.val = k →
      exec (.callAddr nnn) s = .next { s with
        stack := s.stack.set k (BitVec.ofNat 16 (s.pc.toNat + 2))
        sp := ⟨k + 1, Nat.succ_lt_succ h⟩
        pc := BitVec.ofNat 16 nnn.toNat
        events := [] }) ∧
    (s.sp.val = 16 → exec (.callAddr nnn) s = .next (faulted s (.callAddr nnn) .stackOverflow none))

/-- CALL followed at once by RET returns to the instruction after the CALL, at every depth below 16
(41_control_flow.md R151, R153; 90_conflicts.md C4; D8). -/
def Obligations.CallThenRetReturnsAfterTheCall : Prop :=
  ∀ (nnn : Addr12) (s : State), s.sp.val < 16 → s.pc.toNat < 0xFFE →
    ∃ t u, exec (.callAddr nnn) s = .next t ∧ exec .ret t = .next u ∧ u.pc = s.pc + 2 ∧ u.sp = s.sp ∧
      (∀ k : Fin 16, k.val < s.sp.val → u.stack[k] = s.stack[k]) ∧ u.V = s.V ∧ u.memory = s.memory ∧
      u.halted = s.halted

/-- SE Vx,kk and SNE Vx,kk skip one word exactly when V[x] equals, or differs from, kk (R154, R156). -/
def Obligations.SkipComparesRegisterWithByte : Prop :=
  ∀ (x : Reg) (kk : Byte) (s : State),
    (decode (0x3#4 ++ nib x ++ kk) = .ok (.seVxKk x kk) ∧ SkipsWhen (.seVxKk x kk) s (s.V[x] = kk)) ∧
    (decode (0x4#4 ++ nib x ++ kk) = .ok (.sneVxKk x kk) ∧ SkipsWhen (.sneVxKk x kk) s (s.V[x] ≠ kk))

/-- SE Vx,Vy and SNE Vx,Vy skip one word exactly when V[x] equals, or differs from, V[y]; with n ≠ 0 their words are
unknown opcodes (R155, R157). -/
def Obligations.SkipComparesTwoRegisters : Prop :=
  ∀ (x y : Reg) (s : State),
    (decode (0x5#4 ++ nib x ++ nib y ++ 0x0#4) = .ok (.seVxVy x y) ∧ SkipsWhen (.seVxVy x y) s (s.V[x] = s.V[y])) ∧
    (decode (0x9#4 ++ nib x ++ nib y ++ 0x0#4) = .ok (.sneVxVy x y) ∧ SkipsWhen (.sneVxVy x y) s (s.V[x] ≠ s.V[y])) ∧
    (∀ n : Nibble, n ≠ 0 →
      decode (0x5#4 ++ nib x ++ nib y ++ n) = .error (.unknownOpcode (0x5#4 ++ nib x ++ nib y ++ n)) ∧
      decode (0x9#4 ++ nib x ++ nib y ++ n) = .error (.unknownOpcode (0x9#4 ++ nib x ++ nib y ++ n)))

/-! ## Register loads and arithmetic (42_register_alu.md) -/

/-- LD Vx,kk writes kk to V[x], VF included, and nothing else (R180). -/
def Obligations.LoadByteWritesRegister : Prop :=
  ∀ (x : Reg) (kk : Byte) (s : State),
    decode (0x6#4 ++ nib x ++ kk) = .ok (.ldVxKk x kk) ∧
    CompletesAuto (.ldVxKk x kk) s { s with V := s.V.set x.val kk }

/-- ADD Vx,kk writes (V[x] + kk) mod 256 and no flag, also for x = F, and two adds compose to one of the sum (R181). -/
def Obligations.AddByteWrapsWithoutFlag : Prop :=
  (∀ (x : Reg) (kk : Byte) (s : State),
    decode (0x7#4 ++ nib x ++ kk) = .ok (.addVxKk x kk) ∧
    CompletesAuto (.addVxKk x kk) s
      { s with V := s.V.set x.val (BitVec.ofNat 8 ((s.V[x].toNat + kk.toNat) % 256)) }) ∧
  (∀ (x : Reg) (k1 k2 : Byte) (s : State), s.pc.toNat + 4 < 0x1000 →
    ∃ t u v, exec (.addVxKk x k1) s = .next t ∧ exec (.addVxKk x k2) t = .next u ∧
      exec (.addVxKk x (BitVec.ofNat 8 ((k1.toNat + k2.toNat) % 256))) s = .next v ∧ u.V = v.V)

/-- LD, OR, AND and XOR Vx,Vy write the copied or combined byte to V[x] and no flag (R182, R183, R184, R185). -/
def Obligations.CopyAndBitwiseWriteRegister : Prop :=
  ∀ (x y : Reg) (s : State),
    (decode (0x8#4 ++ nib x ++ nib y ++ 0x0#4) = .ok (.ldVxVy x y) ∧
      CompletesAuto (.ldVxVy x y) s { s with V := s.V.set x.val s.V[y] }) ∧
    (decode (0x8#4 ++ nib x ++ nib y ++ 0x1#4) = .ok (.orVxVy x y) ∧
      CompletesAuto (.orVxVy x y) s { s with V := s.V.set x.val (s.V[x] ||| s.V[y]) }) ∧
    (decode (0x8#4 ++ nib x ++ nib y ++ 0x2#4) = .ok (.andVxVy x y) ∧
      CompletesAuto (.andVxVy x y) s { s with V := s.V.set x.val (s.V[x] &&& s.V[y]) }) ∧
    (decode (0x8#4 ++ nib x ++ nib y ++ 0x3#4) = .ok (.xorVxVy x y) ∧
      CompletesAuto (.xorVxVy x y) s { s with V := s.V.set x.val (s.V[x] ^^^ s.V[y]) })

/-- ADD Vx,Vy writes the sum modulo 256 and VF the carry; for x = F the value kept follows VF_WRITE_ORDER, at every value
of that parameter (R186; R179; log 5). -/
def Obligations.AddRegistersSetsCarry : Prop :=
  ∀ (x y : Reg) (s : State),
    decode (0x8#4 ++ nib x ++ nib y ++ 0x4#4) = .ok (.addVxVy x y) ∧
    CompletesAuto (.addVxVy x y) s { s with
      V := withFlag s x ((s.V[x].toNat + s.V[y].toNat) % 256) (if 255 < s.V[x].toNat + s.V[y].toNat then 1 else 0) true }

/-- SUB Vx,Vy and SUBN Vx,Vy write the difference modulo 256 and VF 1 exactly when the minuend is strictly greater; for
x = F the value kept follows VF_WRITE_ORDER (R187, R189; R179; log 5). -/
def Obligations.SubtractSetsNotBorrow : Prop :=
  ∀ (x y : Reg) (s : State),
    (decode (0x8#4 ++ nib x ++ nib y ++ 0x5#4) = .ok (.subVxVy x y) ∧
      CompletesAuto (.subVxVy x y) s { s with
        V := withFlag s x ((256 + s.V[x].toNat - s.V[y].toNat) % 256) (if s.V[x].toNat > s.V[y].toNat then 1 else 0)
          false }) ∧
    (decode (0x8#4 ++ nib x ++ nib y ++ 0x7#4) = .ok (.subnVxVy x y) ∧
      CompletesAuto (.subnVxVy x y) s { s with
        V := withFlag s x ((256 + s.V[y].toNat - s.V[x].toNat) % 256) (if s.V[y].toNat > s.V[x].toNat then 1 else 0)
          false })

/-- SHR Vx and SHL Vx shift V[x] itself by one and write VF the bit shifted out, whatever y and V[y] are; for x = F the
value kept follows VF_WRITE_ORDER (R188, R190; D26; R179; log 5). -/
def Obligations.ShiftsSetBitShiftedOut : Prop :=
  ∀ (x y : Reg) (s : State),
    (decode (0x8#4 ++ nib x ++ nib y ++ 0x6#4) = .ok (.shrVx x y) ∧
      CompletesAuto (.shrVx x y) s { s with V := withFlag s x (s.V[x].toNat / 2) (s.V[x].toNat % 2) false }) ∧
    (decode (0x8#4 ++ nib x ++ nib y ++ 0xE#4) = .ok (.shlVx x y) ∧
      CompletesAuto (.shlVx x y) s { s with V := withFlag s x (s.V[x].toNat * 2 % 256) (s.V[x].toNat / 128) false })

/-! ## Index, indexed jump, random, draw (43_index_jump_random_draw.md) -/

/-- LD I,addr writes zext_16(nnn): the upper four bits become 0 (R210). -/
def Obligations.LoadIndexZeroExtends : Prop :=
  ∀ (nnn : Addr12) (s : State),
    decode (0xA#4 ++ nnn) = .ok (.ldIAddr nnn) ∧
    CompletesAuto (.ldIAddr nnn) s { s with I := BitVec.ofNat 16 nnn.toNat }

/-- JP V0,addr jumps to V0 + nnn, unreduced, and takes PcOutOfRange when that is 0x1000 or more (R211; D6, D26). -/
def Obligations.IndexedJumpAddsV0 : Prop :=
  ∀ (nnn : Addr12) (s : State),
    decode (0xB#4 ++ nnn) = .ok (.jpV0Addr nnn) ∧
    CompletesAt (.jpV0Addr nnn) s s ((s.V[0]).toNat + nnn.toNat)

/-- RND Vx,kk writes a fresh draw of the oracle masked with kk: for every value of the oracle (R212; D20; log 3). -/
def Obligations.RandomByteIsMasked : Prop :=
  ∀ (x : Reg) (kk : Byte) (s : State),
    decode (0xC#4 ++ nib x ++ kk) = .ok (.rndVxKk x kk) ∧
    CompletesAuto (.rndVxKk x kk) s
      { s with V := s.V.set x.val (Config.randomByte s.draws &&& kk), draws := s.draws + 1 }

/-- The sprite of n rows at I, drawn at (x0, y0), has an on pixel at display index j: bit 7 − col of row r is 1, and
the pixel's place wraps on each axis (R213 to R215). -/
def Sys2Proof.Claims.spriteCovers (s : State) (x0 y0 n : Nat) (j : Fin 2048) : Prop :=
  ∃ r col : Nat, r < n ∧ col < 8 ∧ (s.readByte (s.I.toNat + r)).getLsbD (7 - col) = true ∧
    j.val = (y0 + r) % 32 * 64 + (x0 + col) % 64

/-- DRW flips exactly the cells its sprite covers, each once, sets VF to 1 exactly when one of them was on and to 0
otherwise, sets draw_flag, and changes nothing else but pc (R213 to R215; D12, D13, D14). -/
def Obligations.DrawFlipsExactlyTheSpriteCells : Prop :=
  ∀ (x y : Reg) (n : Nibble) (s : State),
    decode (0xD#4 ++ nib x ++ nib y ++ n) = .ok (.drwVxVyN x y n.toNat) ∧
    (n = 0 ∨ s.I.toNat + n.toNat ≤ 0x1000 →
      ∃ (d : Display) (f : Byte),
        CompletesAuto (.drwVxVyN x y n.toNat) s { s with V := s.V.set 15 f, display := d, drawFlag := true } ∧
        (∀ j, spriteCovers s s.V[x].toNat s.V[y].toNat n.toNat j → d.cell j = !s.display.cell j) ∧
        (∀ j, ¬spriteCovers s s.V[x].toNat s.V[y].toNat n.toNat j → d.cell j = s.display.cell j) ∧
        (f = 1 ∧ (∃ j, spriteCovers s s.V[x].toNat s.V[y].toNat n.toNat j ∧ s.display.cell j = true) ∨
         f = 0 ∧ ¬∃ j, spriteCovers s s.V[x].toNat s.V[y].toNat n.toNat j ∧ s.display.cell j = true))

/-- Drawing the same sprite twice at the same place restores the display (R213's law from the source's §8). The second
draw's VF is what R213's pseudocode gives: 1 exactly when the sprite covers a cell that was OFF before the first draw. (C9's
shorter words, "VF = 1 when the sprite has at least one 1 bit", leave out the case in which every covered cell was on: log
15.) -/
def Obligations.DrawingTwiceRestoresTheDisplay : Prop :=
  ∀ (x y : Reg) (n : Nat) (s t : State), n < 16 → s.I.toNat + n ≤ 0x1000 → s.pc.toNat + 4 < 0x1000 →
    exec (.drwVxVyN x y n) s = .next t → t.V[x] = s.V[x] → t.V[y] = s.V[y] →
    ∃ u, exec (.drwVxVyN x y n) t = .next u ∧ u.display = s.display ∧
      (u.V[15] = 1 ↔ ∃ j, spriteCovers s s.V[x].toNat s.V[y].toNat n j ∧ s.display.cell j = false)

/-! ## Keys, timers, index arithmetic, font, BCD, block transfer (44_keys_timers_memory.md) -/

/-- SKP and SKNP skip exactly when key V[x] is, or is not, pressed; with V[x] above 15 they take KeyIndexOutOfRange
(R239 to R241; D16). -/
def Obligations.KeySkipsReadTheKeypad : Prop :=
  ∀ (x : Reg) (s : State),
    decode (0xE#4 ++ nib x ++ 0x9E#8) = .ok (.skpVx x) ∧ decode (0xE#4 ++ nib x ++ 0xA1#8) = .ok (.sknpVx x) ∧
    (∀ k : Fin 16, s.V[x].toNat = k.val →
      SkipsWhen (.skpVx x) s (s.keypad[k] = true) ∧ SkipsWhen (.sknpVx x) s (s.keypad[k] = false)) ∧
    (15 < s.V[x].toNat →
      exec (.skpVx x) s = .next (faulted s (.skpVx x) .keyIndexOutOfRange (some s.V[x].toNat)) ∧
      exec (.sknpVx x) s = .next (faulted s (.sknpVx x) .keyIndexOutOfRange (some s.V[x].toNat)))

/-- LD Vx,DT reads the delay timer and LD DT,Vx sets it (R242, R244). -/
def Obligations.DelayTimerIsReadAndSet : Prop :=
  ∀ (x : Reg) (s : State),
    (decode (0xF#4 ++ nib x ++ 0x07#8) = .ok (.ldVxDt x) ∧
      CompletesAuto (.ldVxDt x) s { s with V := s.V.set x.val s.dt }) ∧
    (decode (0xF#4 ++ nib x ++ 0x15#8) = .ok (.ldDtVx x) ∧ CompletesAuto (.ldDtVx x) s { s with dt := s.V[x] })

/-- LD ST,Vx sets the sound timer and reports nothing, also when it writes 0 over a running timer (R245; D22). -/
def Obligations.SoundTimerIsSetSilently : Prop :=
  ∀ (x : Reg) (s : State),
    decode (0xF#4 ++ nib x ++ 0x18#8) = .ok (.ldStVx x) ∧ CompletesAuto (.ldStVx x) s { s with st := s.V[x] }

/-- LD Vx,K with no key pressed leaves everything, pc included; with a key pressed it loads the lowest pressed index and
advances once (R243; D15). -/
def Obligations.KeyWaitHoldsUntilAKeyIsPressed : Prop :=
  ∀ (x : Reg) (s : State),
    decode (0xF#4 ++ nib x ++ 0x0A#8) = .ok (.ldVxK x) ∧
    ((∀ k : Fin 16, s.keypad[k] = false) → CompletesAt (.ldVxK x) s s s.pc.toNat) ∧
    (∀ k : Fin 16, s.keypad[k] = true → (∀ j : Fin 16, j < k → s.keypad[j] = false) →
      CompletesAuto (.ldVxK x) s { s with V := s.V.set x.val (BitVec.ofNat 8 k.val) })

/-- ADD I,Vx writes (I + V[x]) mod 65536 and no flag (R246; D31). -/
def Obligations.AddToIndexWraps : Prop :=
  ∀ (x : Reg) (s : State),
    decode (0xF#4 ++ nib x ++ 0x1E#8) = .ok (.addIVx x) ∧
    CompletesAuto (.addIVx x) s { s with I := BitVec.ofNat 16 ((s.I.toNat + s.V[x].toNat) % 65536) }

/-- LD F,Vx writes FONT_BASE + 5·V[x] to I, V[x] not masked, for every FONT_BASE (R247; D17, D19; log 4). -/
def Obligations.FontGlyphAddress : Prop :=
  ∀ (x : Reg) (s : State),
    decode (0xF#4 ++ nib x ++ 0x29#8) = .ok (.ldFVx x) ∧
    CompletesAuto (.ldFVx x) s { s with I := BitVec.ofNat 16 ((s.font.base.val + s.V[x].toNat * 5) % 65536) }

/-- LD B,Vx stores the hundreds, tens and ones of V[x] at I, I + 1, I + 2, and no other byte; past the top of memory it
stores nothing and takes MemoryOutOfRange (R248). -/
def Obligations.StoreBcdWritesThreeDigits : Prop :=
  ∀ (x : Reg) (s : State),
    decode (0xF#4 ++ nib x ++ 0x33#8) = .ok (.ldBVx x) ∧
    (s.I.toNat + 2 < 0x1000 → ∃ m : Memory, CompletesAuto (.ldBVx x) s { s with memory := m } ∧
      m.read s.font s.I.toNat = BitVec.ofNat 8 (s.V[x].toNat / 100) ∧
      m.read s.font (s.I.toNat + 1) = BitVec.ofNat 8 (s.V[x].toNat / 10 % 10) ∧
      m.read s.font (s.I.toNat + 2) = BitVec.ofNat 8 (s.V[x].toNat % 10) ∧
      ∀ a, a < s.I.toNat ∨ s.I.toNat + 2 < a → m.read s.font a = s.memory.read s.font a) ∧
    (0x1000 ≤ s.I.toNat + 2 →
      exec (.ldBVx x) s = .next (faulted s (.ldBVx x) .memoryOutOfRange (some (max s.I.toNat 0x1000))))

/-- LD [I],Vx stores V0 to Vx at I to I + x and no other byte, and advances I by x + 1 in legacy mode only; past the top of
memory it stores nothing and takes MemoryOutOfRange (R251). -/
def Obligations.StoreRegistersWritesBlock : Prop :=
  ∀ (x : Reg) (s : State),
    decode (0xF#4 ++ nib x ++ 0x55#8) = .ok (.ldMemVx x) ∧
    (s.I.toNat + x.val < 0x1000 → ∃ m : Memory,
      CompletesAuto (.ldMemVx x) s { s with
        memory := m
        I := if s.legacyMode then BitVec.ofNat 16 ((s.I.toNat + x.val + 1) % 65536) else s.I } ∧
      (∀ k : Fin 16, k ≤ x → m.read s.font (s.I.toNat + k.val) = s.V[k]) ∧
      ∀ a, a < s.I.toNat ∨ s.I.toNat + x.val < a → m.read s.font a = s.memory.read s.font a) ∧
    (0x1000 ≤ s.I.toNat + x.val →
      exec (.ldMemVx x) s = .next (faulted s (.ldMemVx x) .memoryOutOfRange (some (max s.I.toNat 0x1000))))

/-- LD Vx,[I] loads V0 to Vx from I to I + x and no other register, and advances I by x + 1 in legacy mode only; past the
top of memory it loads nothing and takes MemoryOutOfRange (R252). -/
def Obligations.LoadRegistersReadsBlock : Prop :=
  ∀ (x : Reg) (s : State),
    decode (0xF#4 ++ nib x ++ 0x65#8) = .ok (.ldVxMem x) ∧
    (s.I.toNat + x.val < 0x1000 → ∃ v : Vector Byte 16,
      CompletesAuto (.ldVxMem x) s { s with
        V := v
        I := if s.legacyMode then BitVec.ofNat 16 ((s.I.toNat + x.val + 1) % 65536) else s.I } ∧
      (∀ k : Fin 16, k ≤ x → v[k] = s.readByte (s.I.toNat + k.val)) ∧
      (∀ k : Fin 16, x < k → v[k] = s.V[k])) ∧
    (0x1000 ≤ s.I.toNat + x.val →
      exec (.ldVxMem x) s = .next (faulted s (.ldVxMem x) .memoryOutOfRange (some (max s.I.toNat 0x1000))))

/-! ## Runs -/

/-- Self-modifying code takes effect at once: a word that LD [I] stores at the next instruction's address is what the next
step runs (20_memory.md R71, which the spec derives from R62 and R69). -/
def Obligations.StoredWordIsExecutedNext : Prop :=
  ∀ (s t : State) (x : Reg) (i : Instr), s.halted = false → 1 ≤ x.val → s.I.toNat = s.pc.toNat + 2 →
    s.I.toNat + x.val < 0x1000 → exec (.ldMemVx x) s = .next t → decode (s.V[0] ++ s.V[1]) = .ok i →
    step t = exec i t

/-- A jump to its own address is a loop of steps that never faults and changes no state, for any number of steps
(70_reset_and_hazards.md R340; 41_control_flow.md R152). -/
def Obligations.SelfJumpRunsForever : Prop :=
  ∀ (s : State) (nnn : Addr12) (k : Nat), s.halted = false → s.pc.toNat = nnn.toNat → nnn.toNat ≤ 0xFFE →
    s.fetchWord = 0x1#4 ++ nnn →
    s.RunsSafely k ∧ step s = .next { s with events := [] }

/-! ## The other operations of the block (60_exceptions.md sections 4 and 5, 70_reset_and_hazards.md section 1) -/

/-- A tick decrements both timers, floored at zero, reports tone-stop exactly when st goes from 1 to 0, and changes nothing
else; on a halted engine it does nothing (60_exceptions.md R293). -/
def Obligations.TickDecrementsTimers : Prop :=
  (∀ s : State, s.halted = false → s.tick = { s with
    dt := BitVec.ofNat 8 (s.dt.toNat - 1)
    st := BitVec.ofNat 8 (s.st.toNat - 1)
    events := if s.st.toNat = 1 then [Event.toneStop] else [] }) ∧
  (∀ s : State, s.halted = true → s.tick = { s with events := [] })

/-- k ticks take k from each timer, floored at zero, and report one tone-stop exactly when st reaches 0 among them
(60_exceptions.md R293 to R295; D21, D22). -/
def Obligations.DecayTimersCountsDown : Prop :=
  ∀ (k : Nat) (s : State), s.halted = false → s.decayTimers k = { s with
    dt := BitVec.ofNat 8 (s.dt.toNat - k)
    st := BitVec.ofNat 8 (s.st.toNat - k)
    events := if 1 ≤ s.st.toNat ∧ s.st.toNat ≤ k then [Event.toneStop] else [] }

/-- A key write sets its key alone, draw_ack clears draw_flag alone, and reading the display and dumping change no state;
the display read is the 2048 cells in index order (60_exceptions.md R297 to R299). -/
def Obligations.HostReadsAndWritesOnlyItsOwnState : Prop :=
  ∀ (s : State) (k : Fin 16) (b : Bool),
    (∀ j : Fin 16, (s.keyWrite k b).keypad[j] = if j = k then b else s.keypad[j]) ∧
    (s.keyWrite k b) = { s with keypad := (s.keyWrite k b).keypad, events := [] } ∧
    s.drawAck = { s with drawFlag := false, events := [] } ∧
    (∀ j : Fin 2048, s.readDisplay.1[j.val]? = some (s.display.cell j)) ∧ s.readDisplay.2 = s.drawFlag ∧
    (∀ a : Fin 4096, s.dump.memory[a.val]? = some (s.readByte a.val)) ∧
    HostOp.perform s .readDisplay = { s with events := [] } ∧ HostOp.perform s .dump = { s with events := [] }

/-- Session start rejects a clock rate that is not positive and a ROM longer than 3584 bytes; otherwise every register,
timer, key, cell and stack entry is 0, nothing is halted, pc is 0x200, legacy_mode is the configuration's, and memory
holds the font at FONT_BASE, the ROM at 0x200 and 0 elsewhere (70_reset_and_hazards.md R330, R331). -/
def Obligations.SessionStartBuildsTheState : Prop :=
  ∀ (order : VfWriteOrder) (font : Font) (config : SessionConfig) (rom : List Byte),
    (config.clockRate ≤ 0 → sessionStart order font config rom = .error .malformedConfiguration) ∧
    (0 < config.clockRate → 3584 < rom.length → sessionStart order font config rom = .error .romTooLarge) ∧
    (0 < config.clockRate → rom.length ≤ 3584 → ∃ s, sessionStart order font config rom = .ok s ∧
      (∀ x : Reg, s.V[x] = 0) ∧ s.I = 0 ∧ s.pc = 0x200 ∧ (∀ k : Fin 16, s.stack[k] = 0) ∧ s.sp = 0 ∧ s.dt = 0 ∧
      s.st = 0 ∧ (∀ k : Fin 16, s.keypad[k] = false) ∧ (∀ j, s.display.cell j = false) ∧ s.drawFlag = false ∧
      s.halted = false ∧ s.fault = none ∧ s.legacyMode = config.legacyMode ∧
      (∀ j : Fin 80, s.readByte (font.base.val + j.val) = font.glyphs[j]) ∧
      (∀ j, (h : j < rom.length) → s.readByte (0x200 + j) = rom[j]) ∧
      (∀ a, a < 0x1000 → (a < font.base.val ∨ font.base.val + 80 ≤ a) → (a < 0x200 ∨ 0x200 + rom.length ≤ a) →
        s.readByte a = 0))
end

