-- ==== Sys2Proof/Laws/Decode.lean ====
section
/-! SUPPORT. The fields of a word built in a format of 30_encoding.md R93, and the two bytes of a word. -/

namespace Sys2Proof

/-! ## Bytes (20_memory.md R62) -/

theorem wordOfBytes_halves (w : Word) : wordOfBytes (highByte w) (lowByte w) = w := by
  apply BitVec.eq_of_getLsbD_eq
  intro i hi
  unfold wordOfBytes highByte lowByte
  rw [BitVec.getLsbD_append]
  simp only [BitVec.getLsbD_extractLsb']
  by_cases h : i < 8
  · simp [h]
  · have h2 : i - 8 < 8 := by omega
    have h3 : 8 + (i - 8) = i := by omega
    simp [h, h2, h3]

theorem highByte_wordOfBytes (hi lo : Byte) : highByte (wordOfBytes hi lo) = hi := by
  apply BitVec.eq_of_getLsbD_eq
  intro i h
  unfold wordOfBytes highByte
  rw [BitVec.getLsbD_extractLsb', BitVec.getLsbD_append]
  simp [h]

theorem lowByte_wordOfBytes (hi lo : Byte) : lowByte (wordOfBytes hi lo) = lo := by
  apply BitVec.eq_of_getLsbD_eq
  intro i h
  unfold wordOfBytes lowByte
  rw [BitVec.getLsbD_extractLsb', BitVec.getLsbD_append]
  simp [h]

/-! ## Format ADDR -/

@[simp] theorem fieldOp_formatAddr (op : Nibble) (nnn : Addr12) : fieldOp (formatAddr op nnn) = op := by
  apply BitVec.eq_of_getLsbD_eq
  intro i hi
  unfold formatAddr fieldOp
  rw [BitVec.getLsbD_extractLsb', BitVec.getLsbD_append]
  simp [hi]

@[simp] theorem fieldNnn_formatAddr (op : Nibble) (nnn : Addr12) : fieldNnn (formatAddr op nnn) = nnn := by
  apply BitVec.eq_of_getLsbD_eq
  intro i hi
  unfold formatAddr fieldNnn
  rw [BitVec.getLsbD_extractLsb', BitVec.getLsbD_append]
  simp [hi]

/-! ## Formats REG_IMM and REG_SUB -/

@[simp] theorem fieldOp_formatRegImm (op : Nibble) (x : Reg) (kk : Byte) : fieldOp (formatRegImm op x kk) = op := by
  apply BitVec.eq_of_getLsbD_eq
  intro i hi
  unfold formatRegImm fieldOp
  rw [BitVec.getLsbD_extractLsb', BitVec.getLsbD_append, BitVec.getLsbD_append]
  have h1 : ¬ 12 + i < 8 := by omega
  have h2 : ¬ 12 + i - 8 < 4 := by omega
  have h3 : 12 + i - 8 - 4 = i := by omega
  simp only [hi, h1, h2, h3, if_false, decide_true, Bool.true_and]

@[simp] theorem fieldX_formatRegImm (op : Nibble) (x : Reg) (kk : Byte) : fieldX (formatRegImm op x kk) = x := by
  suffices h : (formatRegImm op x kk).extractLsb' 8 4 = regBits x by simp [fieldX, h, regBits]
  apply BitVec.eq_of_getLsbD_eq
  intro i hi
  unfold formatRegImm
  rw [BitVec.getLsbD_extractLsb', BitVec.getLsbD_append, BitVec.getLsbD_append]
  have h1 : ¬ 8 + i < 8 := by omega
  have h2 : 8 + i - 8 = i := by omega
  simp only [hi, h1, h2, if_false, if_true, decide_true, Bool.true_and]

@[simp] theorem fieldKk_formatRegImm (op : Nibble) (x : Reg) (kk : Byte) : fieldKk (formatRegImm op x kk) = kk := by
  apply BitVec.eq_of_getLsbD_eq
  intro i hi
  unfold formatRegImm fieldKk
  rw [BitVec.getLsbD_extractLsb', BitVec.getLsbD_append]
  simp [hi]

/-! ## Formats REG_REG and DRAW -/

@[simp] theorem fieldOp_formatRegReg (op : Nibble) (x y : Reg) (n : Nibble) :
    fieldOp (formatRegReg op x y n) = op := by
  apply BitVec.eq_of_getLsbD_eq
  intro i hi
  unfold formatRegReg fieldOp
  rw [BitVec.getLsbD_extractLsb', BitVec.getLsbD_append, BitVec.getLsbD_append, BitVec.getLsbD_append]
  have h1 : ¬ 12 + i < 4 := by omega
  have h2 : ¬ 12 + i - 4 < 4 := by omega
  have h3 : ¬ 12 + i - 4 - 4 < 4 := by omega
  have h4 : 12 + i - 4 - 4 - 4 = i := by omega
  simp only [hi, h1, h2, h3, h4, if_false, decide_true, Bool.true_and]

@[simp] theorem fieldX_formatRegReg (op : Nibble) (x y : Reg) (n : Nibble) :
    fieldX (formatRegReg op x y n) = x := by
  suffices h : (formatRegReg op x y n).extractLsb' 8 4 = regBits x by simp [fieldX, h, regBits]
  apply BitVec.eq_of_getLsbD_eq
  intro i hi
  unfold formatRegReg
  rw [BitVec.getLsbD_extractLsb', BitVec.getLsbD_append, BitVec.getLsbD_append, BitVec.getLsbD_append]
  have h1 : ¬ 8 + i < 4 := by omega
  have h2 : ¬ 8 + i - 4 < 4 := by omega
  have h3 : 8 + i - 4 - 4 = i := by omega
  simp only [hi, h1, h2, h3, if_false, if_true, decide_true, Bool.true_and]

@[simp] theorem fieldY_formatRegReg (op : Nibble) (x y : Reg) (n : Nibble) :
    fieldY (formatRegReg op x y n) = y := by
  suffices h : (formatRegReg op x y n).extractLsb' 4 4 = regBits y by simp [fieldY, h, regBits]
  apply BitVec.eq_of_getLsbD_eq
  intro i hi
  unfold formatRegReg
  rw [BitVec.getLsbD_extractLsb', BitVec.getLsbD_append, BitVec.getLsbD_append]
  have h1 : ¬ 4 + i < 4 := by omega
  have h2 : 4 + i - 4 = i := by omega
  simp only [hi, h1, h2, if_false, if_true, decide_true, Bool.true_and]

@[simp] theorem fieldN_formatRegReg (op : Nibble) (x y : Reg) (n : Nibble) :
    fieldN (formatRegReg op x y n) = n := by
  apply BitVec.eq_of_getLsbD_eq
  intro i hi
  unfold formatRegReg fieldN
  rw [BitVec.getLsbD_extractLsb', BitVec.getLsbD_append]
  simp [hi]

/-! ## A word from its fields -/

theorem formatAddr_fields (w : Word) : formatAddr (fieldOp w) (fieldNnn w) = w := by
  apply BitVec.eq_of_getLsbD_eq
  intro i hi
  unfold formatAddr fieldOp fieldNnn
  rw [BitVec.getLsbD_append]
  simp only [BitVec.getLsbD_extractLsb']
  interval_cases i <;> simp

theorem formatRegImm_fields (w : Word) : formatRegImm (fieldOp w) (fieldX w) (fieldKk w) = w := by
  apply BitVec.eq_of_getLsbD_eq
  intro i hi
  unfold formatRegImm fieldOp fieldX fieldKk regBits
  rw [BitVec.getLsbD_append, BitVec.getLsbD_append]
  change (if i < 8 then _ else if i - 8 < 4 then (w.extractLsb' 8 4).getLsbD (i - 8) else _) = _
  simp only [BitVec.getLsbD_extractLsb']
  interval_cases i <;> simp

theorem formatRegReg_fields (w : Word) : formatRegReg (fieldOp w) (fieldX w) (fieldY w) (fieldN w) = w := by
  apply BitVec.eq_of_getLsbD_eq
  intro i hi
  unfold formatRegReg fieldOp fieldX fieldY fieldN regBits
  rw [BitVec.getLsbD_append, BitVec.getLsbD_append, BitVec.getLsbD_append]
  change (if i < 4 then _ else if i - 4 < 4 then (w.extractLsb' 4 4).getLsbD (i - 4)
    else if i - 4 - 4 < 4 then (w.extractLsb' 8 4).getLsbD (i - 4 - 4) else _) = _
  simp only [BitVec.getLsbD_extractLsb']
  interval_cases i <;> simp

/-- A well-formed sprite height fits its field (30_encoding.md R92). -/
theorem drw_height_lt {x y : Reg} {n : Nat} (h : (Instr.drwVxVyN x y n).WellFormed) : n < 16 := by
  simpa [Instr.WellFormed, Instr.wellFormed] using h

end Sys2Proof
end

