-- ==== Sys2Proof/Laws/Display.lean ====
section
/-! SUPPORT. The display by its cells: toggling, and the draw loop over a list of cells (43_index_jump_random_draw.md R213). -/

namespace Sys2Proof.Machine

/-- Two displays with the same cells are the same display. -/
theorem display_ext {d e : Display} (h : ∀ j, d.cell j = e.cell j) : d = e := by
  apply Vector.ext
  intro y hy
  apply BitVec.eq_of_getLsbD_eq
  intro x hx
  have hj : y * 64 + x < 2048 := by omega
  have hy' : (y * 64 + x) / 64 = y := by omega
  have hx' : (y * 64 + x) % 64 = x := by omega
  simpa only [Display.cell, hy', hx'] using h ⟨y * 64 + x, hj⟩

/-- A toggle flips its own cell and no other. -/
@[simp] theorem cell_toggle (d : Display) (j k : Fin 2048) :
    (d.toggle j).cell k = if j = k then !d.cell k else d.cell k := by
  unfold Display.toggle Display.cell
  by_cases hrow : j.val / 64 = k.val / 64
  · by_cases hcol : j.val % 64 = k.val % 64
    · have : j = k := Fin.ext (by omega)
      subst this
      simp [Nat.mod_lt]
    · have : j ≠ k := fun e => hcol (by rw [e])
      simp [hrow, this, BitVec.getLsbD_twoPow, hcol]
  · have : j ≠ k := fun e => hrow (by rw [e])
    simp [hrow, this]

@[simp] theorem cell_blank (j : Fin 2048) : Display.blank.cell j = false := by
  simp [Display.blank, Display.cell]

/-- The draw loop from any intermediate result, over cells that are all different. -/
theorem foldl_togglePixel (js : List (Fin 2048)) (hjs : js.Nodup) (d : Display) (c : Bool) :
    (∀ k, (js.foldl togglePixel (d, c)).1.cell k = (d.cell k ^^ decide (k ∈ js))) ∧
    (js.foldl togglePixel (d, c)).2 = (c || js.any d.cell) := by
  induction js generalizing d c with
  | nil => simp
  | cons j js ih =>
    obtain ⟨hj, hjs⟩ := List.nodup_cons.mp hjs
    obtain ⟨h1, h2⟩ := ih hjs (d.toggle j) (c || d.cell j)
    refine ⟨fun k => ?_, ?_⟩
    · rw [List.foldl_cons]
      refine (h1 k).trans ?_
      by_cases hk : j = k
      · subst hk; simp [hj]
      · have : k ≠ j := fun e => hk e.symm
        simp [hk, this]
    · rw [List.foldl_cons]
      refine h2.trans ?_
      have : js.any (d.toggle j).cell = js.any d.cell := by
        rw [Bool.eq_iff_iff]
        simp only [List.any_eq_true]
        constructor <;> rintro ⟨k, hk, hc⟩ <;> refine ⟨k, hk, ?_⟩ <;>
          · have : j ≠ k := fun e => hj (e ▸ hk)
            simpa [this] using hc
      simp [this, Bool.or_assoc]

/-- The draw loop flips exactly the listed cells. -/
theorem blit_cell {js : List (Fin 2048)} (hjs : js.Nodup) (d : Display) (k : Fin 2048) :
    (blit d js).1.cell k = (d.cell k ^^ decide (k ∈ js)) := (foldl_togglePixel js hjs d false).1 k

/-- The draw loop reports a collision when a listed cell was on. -/
theorem blit_collision {js : List (Fin 2048)} (hjs : js.Nodup) (d : Display) : (blit d js).2 = js.any d.cell :=
  (foldl_togglePixel js hjs d false).2.trans (Bool.false_or _)

/-! ## The cells of a sprite -/

theorem mem_rowPixels {x0 y : Nat} {b : Byte} {j : Fin 2048} :
    j ∈ rowPixels x0 y b ↔ ∃ col, col < 8 ∧ spriteBit b col = true ∧ j = pixelIndex (x0 + col) y := by
  simp only [rowPixels, List.mem_map, List.mem_filter, List.mem_range, and_assoc, eq_comm]

theorem mem_spritePixels {x0 y : Nat} {rows : List Byte} {j : Fin 2048} :
    j ∈ spritePixels x0 y rows ↔
      ∃ r, ∃ h : r < rows.length, ∃ col, col < 8 ∧ spriteBit rows[r] col = true ∧ j = pixelIndex (x0 + col) (y + r) := by
  induction rows generalizing y with
  | nil => simp [spritePixels]
  | cons b rows ih =>
    rw [spritePixels, List.mem_append, mem_rowPixels, ih]
    constructor
    · rintro (⟨col, h⟩ | ⟨r, hr, col, h⟩)
      · exact ⟨0, by simp, col, by simpa using h⟩
      · refine ⟨r + 1, by simpa using hr, col, ?_⟩
        have : y + 1 + r = y + (r + 1) := by omega
        simpa [this] using h
    · rintro ⟨r, hr, col, h⟩
      cases r with
      | zero => exact .inl ⟨col, by simpa using h⟩
      | succ r =>
        refine .inr ⟨r, by simpa using hr, col, ?_⟩
        have : y + 1 + r = y + (r + 1) := by omega
        simpa [this] using h

/-- A row's cells are all different: 8 columns modulo 64 (R213). -/
theorem rowPixels_nodup (x0 y : Nat) (b : Byte) : (rowPixels x0 y b).Nodup := by
  refine List.Nodup.map_on ?_ (List.nodup_range.filter _)
  intro c hc d hd h
  have hc := List.mem_range.mp (List.mem_of_mem_filter hc)
  have hd := List.mem_range.mp (List.mem_of_mem_filter hd)
  have := congrArg Fin.val h
  simp only [pixelIndex] at this
  omega

/-- No cell is toggled twice within one draw: at most 32 rows land on distinct rows (R213). -/
theorem spritePixels_nodup (x0 y : Nat) (rows : List Byte) (h : rows.length ≤ 32) : (spritePixels x0 y rows).Nodup := by
  induction rows generalizing y with
  | nil => simp [spritePixels]
  | cons b rows ih =>
    simp only [List.length_cons] at h
    refine List.Nodup.append (rowPixels_nodup x0 y b) (ih (y + 1) (by omega)) ?_
    intro j hj hj'
    obtain ⟨c, hc, -, rfl⟩ := mem_rowPixels.mp hj
    obtain ⟨r, hr, d, hd, -, he⟩ := mem_spritePixels.mp hj'
    have := congrArg Fin.val he
    simp only [pixelIndex] at this
    omega

end Sys2Proof.Machine
end

