-- ==== Sys2Proof/Laws/Memory.lean ====
section
/-! SUPPORT. Memory: a read after a write, and the canonical form kept by every memory operation. -/

namespace Sys2Proof.Machine

@[simp] theorem memSize_eq : Config.memSize = 0x1000 := rfl

@[simp] theorem progBase_eq : Config.progBase = 0x200 := rfl

/-- Above the reserved region session start leaves 0 (70_reset_and_hazards.md R330). -/
theorem blankByte_high (f : Font) {a : Nat} (h : 0x200 ≤ a) : blankByte f a = 0 := by
  simp [blankByte, Nat.not_lt.mpr h]

theorem lookup_insert (m : Memory) (a b : Nat) (v : Byte) :
    (m.insert a v).lookup b = if a = b then some v else m.lookup b := by
  induction m with
  | nil => simp [Memory.insert, Memory.lookup]
  | cons c m ih =>
    obtain ⟨k, c⟩ := c
    simp only [Memory.insert]
    split
    · simp [Memory.lookup]
    · split
      · subst a; by_cases hkb : k = b <;> simp [Memory.lookup, hkb]
      · simp only [Memory.lookup, ih]
        by_cases hkb : k = b <;> by_cases hab : a = b <;> simp_all

theorem lookup_erase (m : Memory) (a b : Nat) :
    (m.erase a).lookup b = if a = b then none else m.lookup b := by
  induction m with
  | nil => simp [Memory.erase, Memory.lookup]
  | cons c m ih =>
    obtain ⟨k, c⟩ := c
    simp only [Memory.erase]
    split
    · subst a; rw [ih]; by_cases hkb : k = b <;> simp [Memory.lookup, hkb]
    · simp only [Memory.lookup, ih]
      by_cases hkb : k = b <;> by_cases hab : a = b <;> simp_all

/-- A write changes exactly its own byte. -/
@[simp] theorem read_write (f : Font) (m : Memory) (a b : Nat) (v : Byte) :
    (m.write f a v).read f b = if a = b then v else m.read f b := by
  unfold Memory.write Memory.read
  split
  · rename_i h; rw [lookup_erase]; by_cases hab : a = b <;> simp [hab]; rw [h, hab]
  · rw [lookup_insert]; by_cases hab : a = b <;> simp [hab]

/-- Consecutive writes change exactly the bytes from `a` on. -/
theorem read_writeBytes (f : Font) (bs : List Byte) (m : Memory) (a b : Nat) :
    (m.writeBytes f a bs).read f b =
      if h : a ≤ b ∧ b < a + bs.length then bs[b - a]'(by omega) else m.read f b := by
  induction bs generalizing m a with
  | nil => simp [Memory.writeBytes]
  | cons v bs ih =>
    simp only [Memory.writeBytes, ih, read_write, List.length_cons]
    by_cases hab : a = b
    · subst hab; simp
    · by_cases hle : a + 1 ≤ b ∧ b < a + 1 + bs.length
      · have h2 : a ≤ b ∧ b < a + (bs.length + 1) := by omega
        have h3 : b - a = (b - (a + 1)) + 1 := by omega
        simp [hle, h2, h3]
      · have h2 : ¬(a ≤ b ∧ b < a + (bs.length + 1)) := by omega
        rw [dif_neg hle, dif_neg h2, if_neg hab]

theorem mem_insert {m : Memory} {a : Nat} {v : Byte} {c : Host.Cell} (h : c ∈ m.insert a v) : c = (a, v) ∨ c ∈ m := by
  induction m with
  | nil => simpa [Memory.insert] using h
  | cons d m ih =>
    obtain ⟨k, d⟩ := d
    simp only [Memory.insert] at h
    split at h
    · simpa using h
    · split at h
      · simp only [List.mem_cons] at h ⊢; tauto
      · simp only [List.mem_cons] at h ⊢
        rcases h with h | h
        · exact .inr (.inl h)
        · rcases ih h with h | h
          · exact .inl h
          · exact .inr (.inr h)

theorem mem_erase {m : Memory} {a : Nat} {c : Host.Cell} (h : c ∈ m.erase a) : c ∈ m := by
  induction m with
  | nil => simp [Memory.erase] at h
  | cons d m ih =>
    obtain ⟨k, d⟩ := d
    simp only [Memory.erase] at h
    split at h
    · exact List.mem_cons_of_mem _ (ih h)
    · simp only [List.mem_cons] at h ⊢
      rcases h with h | h
      · exact .inl h
      · exact .inr (ih h)

theorem insert_rising {m : Memory} (a : Nat) (v : Byte) (h : m.Pairwise (fun c d => c.1 < d.1)) :
    (m.insert a v).Pairwise (fun c d => c.1 < d.1) := by
  induction m with
  | nil => simp [Memory.insert]
  | cons d m ih =>
    obtain ⟨k, d⟩ := d
    obtain ⟨hk, hm⟩ := List.pairwise_cons.mp h
    simp only [Memory.insert]
    split
    · rename_i hak
      refine List.pairwise_cons.mpr ⟨fun c hc => ?_, h⟩
      rcases List.mem_cons.mp hc with rfl | hc
      · exact hak
      · exact Nat.lt_trans hak (hk c hc)
    · split
      · rename_i _ hak; subst hak; exact List.pairwise_cons.mpr ⟨hk, hm⟩
      · refine List.pairwise_cons.mpr ⟨fun c hc => ?_, ih hm⟩
        rcases mem_insert hc with rfl | hc
        · dsimp only; omega
        · exact hk c hc

theorem erase_rising {m : Memory} (a : Nat) (h : m.Pairwise (fun c d => c.1 < d.1)) :
    (m.erase a).Pairwise (fun c d => c.1 < d.1) := by
  induction m with
  | nil => simp [Memory.erase]
  | cons d m ih =>
    obtain ⟨k, d⟩ := d
    obtain ⟨hk, hm⟩ := List.pairwise_cons.mp h
    simp only [Memory.erase]
    split
    · exact ih hm
    · exact List.pairwise_cons.mpr ⟨fun c hc => hk c (mem_erase hc), ih hm⟩

theorem nil_wf (f : Font) : Memory.wf f [] := by simp [Memory.wf]

/-- A write inside the 4096 bytes keeps the canonical form. -/
theorem write_wf {f : Font} {m : Memory} {a : Nat} (v : Byte) (h : m.wf f) (ha : a < 0x1000) : (m.write f a v).wf f := by
  unfold Memory.write
  split
  · exact ⟨erase_rising a h.1, fun c hc => h.2 c (mem_erase hc)⟩
  · rename_i hv
    refine ⟨insert_rising a v h.1, fun c hc => ?_⟩
    rcases mem_insert hc with rfl | hc
    · exact ⟨ha, hv⟩
    · exact h.2 c hc

/-- Consecutive writes inside the 4096 bytes keep the canonical form. -/
theorem writeBytes_wf {f : Font} (bs : List Byte) {m : Memory} {a : Nat} (h : m.wf f) (ha : a + bs.length ≤ 0x1000) :
    (m.writeBytes f a bs).wf f := by
  induction bs generalizing m a with
  | nil => exact h
  | cons v bs ih =>
    simp only [List.length_cons] at ha
    exact ih (write_wf v h (by omega)) (by omega)

/-! ## The same of State -/

/-- What a state's memory reads after consecutive writes. -/
theorem readByte_writeBytes (s : State) (a b : Nat) (bs : List Byte) :
    (s.writeBytes a bs).readByte b =
      if h : a ≤ b ∧ b < a + bs.length then bs[b - a]'(by omega) else s.readByte b :=
  read_writeBytes s.font bs s.memory a b

@[simp] theorem readByte_setV (s : State) (x : Reg) (b : Byte) (a : Nat) : (s.setV x b).readByte a = s.readByte a := rfl

@[simp] theorem readByte_takeFault (s : State) (r : FaultRecord) (a : Nat) :
    (s.takeFault r).readByte a = s.readByte a := rfl

@[simp] theorem readBytes_length (s : State) (a n : Nat) : (s.readBytes a n).length = n := by
  induction n generalizing a with
  | zero => rfl
  | succ n ih => simp [State.readBytes, ih]

theorem readBytes_getElem (s : State) (a n k : Nat) (h : k < (s.readBytes a n).length) :
    (s.readBytes a n)[k] = s.readByte (a + k) := by
  induction n generalizing a k with
  | zero => simp at h
  | succ n ih =>
    cases k with
    | zero => simp [State.readBytes]
    | succ k =>
      simp only [readBytes_length] at h
      simp only [State.readBytes, List.getElem_cons_succ]
      rw [ih (a + 1) k (by simp; omega)]
      congr 1; omega

end Sys2Proof.Machine
end

