-- ==== Sys2Proof/Laws/State.lean ====
section
/-! SUPPORT. One lemma per field per update of State, so that no later proof unfolds a record update. -/

namespace Sys2Proof.Machine

variable (s : State)

/-! ## setV -/

@[simp] theorem setV_memory (x : Reg) (b : Byte) : (s.setV x b).memory = s.memory := rfl
@[simp] theorem setV_V (x : Reg) (b : Byte) : (s.setV x b).V = s.V.set x.val b := rfl
@[simp] theorem setV_I (x : Reg) (b : Byte) : (s.setV x b).I = s.I := rfl
@[simp] theorem setV_pc (x : Reg) (b : Byte) : (s.setV x b).pc = s.pc := rfl
@[simp] theorem setV_stack (x : Reg) (b : Byte) : (s.setV x b).stack = s.stack := rfl
@[simp] theorem setV_sp (x : Reg) (b : Byte) : (s.setV x b).sp = s.sp := rfl
@[simp] theorem setV_dt (x : Reg) (b : Byte) : (s.setV x b).dt = s.dt := rfl
@[simp] theorem setV_st (x : Reg) (b : Byte) : (s.setV x b).st = s.st := rfl
@[simp] theorem setV_keypad (x : Reg) (b : Byte) : (s.setV x b).keypad = s.keypad := rfl
@[simp] theorem setV_display (x : Reg) (b : Byte) : (s.setV x b).display = s.display := rfl
@[simp] theorem setV_drawFlag (x : Reg) (b : Byte) : (s.setV x b).drawFlag = s.drawFlag := rfl
@[simp] theorem setV_halted (x : Reg) (b : Byte) : (s.setV x b).halted = s.halted := rfl
@[simp] theorem setV_fault (x : Reg) (b : Byte) : (s.setV x b).fault = s.fault := rfl
@[simp] theorem setV_legacyMode (x : Reg) (b : Byte) : (s.setV x b).legacyMode = s.legacyMode := rfl
@[simp] theorem setV_vfWriteOrder (x : Reg) (b : Byte) : (s.setV x b).vfWriteOrder = s.vfWriteOrder := rfl
@[simp] theorem setV_font (x : Reg) (b : Byte) : (s.setV x b).font = s.font := rfl
@[simp] theorem setV_draws (x : Reg) (b : Byte) : (s.setV x b).draws = s.draws := rfl
@[simp] theorem setV_events (x : Reg) (b : Byte) : (s.setV x b).events = s.events := rfl

/-! ## writeRF -/

@[simp] theorem writeRF_memory (o : ListedOrder) (x : Reg) (r f : Byte) : (s.writeRF o x r f).memory = s.memory := by
  unfold State.writeRF; split <;> rfl
@[simp] theorem writeRF_I (o : ListedOrder) (x : Reg) (r f : Byte) : (s.writeRF o x r f).I = s.I := by
  unfold State.writeRF; split <;> rfl
@[simp] theorem writeRF_pc (o : ListedOrder) (x : Reg) (r f : Byte) : (s.writeRF o x r f).pc = s.pc := by
  unfold State.writeRF; split <;> rfl
@[simp] theorem writeRF_stack (o : ListedOrder) (x : Reg) (r f : Byte) : (s.writeRF o x r f).stack = s.stack := by
  unfold State.writeRF; split <;> rfl
@[simp] theorem writeRF_sp (o : ListedOrder) (x : Reg) (r f : Byte) : (s.writeRF o x r f).sp = s.sp := by
  unfold State.writeRF; split <;> rfl
@[simp] theorem writeRF_dt (o : ListedOrder) (x : Reg) (r f : Byte) : (s.writeRF o x r f).dt = s.dt := by
  unfold State.writeRF; split <;> rfl
@[simp] theorem writeRF_st (o : ListedOrder) (x : Reg) (r f : Byte) : (s.writeRF o x r f).st = s.st := by
  unfold State.writeRF; split <;> rfl
@[simp] theorem writeRF_keypad (o : ListedOrder) (x : Reg) (r f : Byte) : (s.writeRF o x r f).keypad = s.keypad := by
  unfold State.writeRF; split <;> rfl
@[simp] theorem writeRF_display (o : ListedOrder) (x : Reg) (r f : Byte) : (s.writeRF o x r f).display = s.display := by
  unfold State.writeRF; split <;> rfl
@[simp] theorem writeRF_drawFlag (o : ListedOrder) (x : Reg) (r f : Byte) : (s.writeRF o x r f).drawFlag = s.drawFlag := by
  unfold State.writeRF; split <;> rfl
@[simp] theorem writeRF_halted (o : ListedOrder) (x : Reg) (r f : Byte) : (s.writeRF o x r f).halted = s.halted := by
  unfold State.writeRF; split <;> rfl
@[simp] theorem writeRF_fault (o : ListedOrder) (x : Reg) (r f : Byte) : (s.writeRF o x r f).fault = s.fault := by
  unfold State.writeRF; split <;> rfl
@[simp] theorem writeRF_legacyMode (o : ListedOrder) (x : Reg) (r f : Byte) : (s.writeRF o x r f).legacyMode = s.legacyMode := by
  unfold State.writeRF; split <;> rfl
@[simp] theorem writeRF_vfWriteOrder (o : ListedOrder) (x : Reg) (r f : Byte) : (s.writeRF o x r f).vfWriteOrder = s.vfWriteOrder := by
  unfold State.writeRF; split <;> rfl
@[simp] theorem writeRF_font (o : ListedOrder) (x : Reg) (r f : Byte) : (s.writeRF o x r f).font = s.font := by
  unfold State.writeRF; split <;> rfl
@[simp] theorem writeRF_draws (o : ListedOrder) (x : Reg) (r f : Byte) : (s.writeRF o x r f).draws = s.draws := by
  unfold State.writeRF; split <;> rfl
@[simp] theorem writeRF_events (o : ListedOrder) (x : Reg) (r f : Byte) : (s.writeRF o x r f).events = s.events := by
  unfold State.writeRF; split <;> rfl

/-! ## writeBytes -/

@[simp] theorem writeBytes_memory (a : Nat) (bs : List Byte) : (s.writeBytes a bs).memory = s.memory.writeBytes s.font a bs := rfl
@[simp] theorem writeBytes_V (a : Nat) (bs : List Byte) : (s.writeBytes a bs).V = s.V := rfl
@[simp] theorem writeBytes_I (a : Nat) (bs : List Byte) : (s.writeBytes a bs).I = s.I := rfl
@[simp] theorem writeBytes_pc (a : Nat) (bs : List Byte) : (s.writeBytes a bs).pc = s.pc := rfl
@[simp] theorem writeBytes_stack (a : Nat) (bs : List Byte) : (s.writeBytes a bs).stack = s.stack := rfl
@[simp] theorem writeBytes_sp (a : Nat) (bs : List Byte) : (s.writeBytes a bs).sp = s.sp := rfl
@[simp] theorem writeBytes_dt (a : Nat) (bs : List Byte) : (s.writeBytes a bs).dt = s.dt := rfl
@[simp] theorem writeBytes_st (a : Nat) (bs : List Byte) : (s.writeBytes a bs).st = s.st := rfl
@[simp] theorem writeBytes_keypad (a : Nat) (bs : List Byte) : (s.writeBytes a bs).keypad = s.keypad := rfl
@[simp] theorem writeBytes_display (a : Nat) (bs : List Byte) : (s.writeBytes a bs).display = s.display := rfl
@[simp] theorem writeBytes_drawFlag (a : Nat) (bs : List Byte) : (s.writeBytes a bs).drawFlag = s.drawFlag := rfl
@[simp] theorem writeBytes_halted (a : Nat) (bs : List Byte) : (s.writeBytes a bs).halted = s.halted := rfl
@[simp] theorem writeBytes_fault (a : Nat) (bs : List Byte) : (s.writeBytes a bs).fault = s.fault := rfl
@[simp] theorem writeBytes_legacyMode (a : Nat) (bs : List Byte) : (s.writeBytes a bs).legacyMode = s.legacyMode := rfl
@[simp] theorem writeBytes_vfWriteOrder (a : Nat) (bs : List Byte) : (s.writeBytes a bs).vfWriteOrder = s.vfWriteOrder := rfl
@[simp] theorem writeBytes_font (a : Nat) (bs : List Byte) : (s.writeBytes a bs).font = s.font := rfl
@[simp] theorem writeBytes_draws (a : Nat) (bs : List Byte) : (s.writeBytes a bs).draws = s.draws := rfl
@[simp] theorem writeBytes_events (a : Nat) (bs : List Byte) : (s.writeBytes a bs).events = s.events := rfl

/-! ## takeFault -/

@[simp] theorem takeFault_memory (r : FaultRecord) : (s.takeFault r).memory = s.memory := rfl
@[simp] theorem takeFault_V (r : FaultRecord) : (s.takeFault r).V = s.V := rfl
@[simp] theorem takeFault_I (r : FaultRecord) : (s.takeFault r).I = s.I := rfl
@[simp] theorem takeFault_pc (r : FaultRecord) : (s.takeFault r).pc = s.pc := rfl
@[simp] theorem takeFault_stack (r : FaultRecord) : (s.takeFault r).stack = s.stack := rfl
@[simp] theorem takeFault_sp (r : FaultRecord) : (s.takeFault r).sp = s.sp := rfl
@[simp] theorem takeFault_dt (r : FaultRecord) : (s.takeFault r).dt = s.dt := rfl
@[simp] theorem takeFault_st (r : FaultRecord) : (s.takeFault r).st = s.st := rfl
@[simp] theorem takeFault_keypad (r : FaultRecord) : (s.takeFault r).keypad = s.keypad := rfl
@[simp] theorem takeFault_display (r : FaultRecord) : (s.takeFault r).display = s.display := rfl
@[simp] theorem takeFault_drawFlag (r : FaultRecord) : (s.takeFault r).drawFlag = s.drawFlag := rfl
@[simp] theorem takeFault_halted (r : FaultRecord) : (s.takeFault r).halted = true := rfl
@[simp] theorem takeFault_fault (r : FaultRecord) : (s.takeFault r).fault = some r := rfl
@[simp] theorem takeFault_legacyMode (r : FaultRecord) : (s.takeFault r).legacyMode = s.legacyMode := rfl
@[simp] theorem takeFault_vfWriteOrder (r : FaultRecord) : (s.takeFault r).vfWriteOrder = s.vfWriteOrder := rfl
@[simp] theorem takeFault_font (r : FaultRecord) : (s.takeFault r).font = s.font := rfl
@[simp] theorem takeFault_draws (r : FaultRecord) : (s.takeFault r).draws = s.draws := rfl
@[simp] theorem takeFault_events (r : FaultRecord) : (s.takeFault r).events = [.fault r] := rfl

/-! ## takeFetchFault -/

@[simp] theorem takeFetchFault_memory : (s.takeFetchFault).memory = s.memory := rfl
@[simp] theorem takeFetchFault_V : (s.takeFetchFault).V = s.V := rfl
@[simp] theorem takeFetchFault_I : (s.takeFetchFault).I = s.I := rfl
@[simp] theorem takeFetchFault_pc : (s.takeFetchFault).pc = s.pc := rfl
@[simp] theorem takeFetchFault_stack : (s.takeFetchFault).stack = s.stack := rfl
@[simp] theorem takeFetchFault_sp : (s.takeFetchFault).sp = s.sp := rfl
@[simp] theorem takeFetchFault_dt : (s.takeFetchFault).dt = s.dt := rfl
@[simp] theorem takeFetchFault_st : (s.takeFetchFault).st = s.st := rfl
@[simp] theorem takeFetchFault_keypad : (s.takeFetchFault).keypad = s.keypad := rfl
@[simp] theorem takeFetchFault_display : (s.takeFetchFault).display = s.display := rfl
@[simp] theorem takeFetchFault_drawFlag : (s.takeFetchFault).drawFlag = s.drawFlag := rfl
@[simp] theorem takeFetchFault_halted : (s.takeFetchFault).halted = true := rfl
@[simp] theorem takeFetchFault_fault : (s.takeFetchFault).fault = some ⟨.fetchOutOfRange, s.pc, none, none⟩ := rfl
@[simp] theorem takeFetchFault_legacyMode : (s.takeFetchFault).legacyMode = s.legacyMode := rfl
@[simp] theorem takeFetchFault_vfWriteOrder : (s.takeFetchFault).vfWriteOrder = s.vfWriteOrder := rfl
@[simp] theorem takeFetchFault_font : (s.takeFetchFault).font = s.font := rfl
@[simp] theorem takeFetchFault_draws : (s.takeFetchFault).draws = s.draws := rfl
@[simp] theorem takeFetchFault_events : (s.takeFetchFault).events = [.fault ⟨.fetchOutOfRange, s.pc, none, none⟩] := rfl

/-! ## keyWrite -/

@[simp] theorem keyWrite_memory (k : Fin 16) (b : Bool) : (s.keyWrite k b).memory = s.memory := rfl
@[simp] theorem keyWrite_V (k : Fin 16) (b : Bool) : (s.keyWrite k b).V = s.V := rfl
@[simp] theorem keyWrite_I (k : Fin 16) (b : Bool) : (s.keyWrite k b).I = s.I := rfl
@[simp] theorem keyWrite_pc (k : Fin 16) (b : Bool) : (s.keyWrite k b).pc = s.pc := rfl
@[simp] theorem keyWrite_stack (k : Fin 16) (b : Bool) : (s.keyWrite k b).stack = s.stack := rfl
@[simp] theorem keyWrite_sp (k : Fin 16) (b : Bool) : (s.keyWrite k b).sp = s.sp := rfl
@[simp] theorem keyWrite_dt (k : Fin 16) (b : Bool) : (s.keyWrite k b).dt = s.dt := rfl
@[simp] theorem keyWrite_st (k : Fin 16) (b : Bool) : (s.keyWrite k b).st = s.st := rfl
@[simp] theorem keyWrite_keypad (k : Fin 16) (b : Bool) : (s.keyWrite k b).keypad = s.keypad.set k.val b := rfl
@[simp] theorem keyWrite_display (k : Fin 16) (b : Bool) : (s.keyWrite k b).display = s.display := rfl
@[simp] theorem keyWrite_drawFlag (k : Fin 16) (b : Bool) : (s.keyWrite k b).drawFlag = s.drawFlag := rfl
@[simp] theorem keyWrite_halted (k : Fin 16) (b : Bool) : (s.keyWrite k b).halted = s.halted := rfl
@[simp] theorem keyWrite_fault (k : Fin 16) (b : Bool) : (s.keyWrite k b).fault = s.fault := rfl
@[simp] theorem keyWrite_legacyMode (k : Fin 16) (b : Bool) : (s.keyWrite k b).legacyMode = s.legacyMode := rfl
@[simp] theorem keyWrite_vfWriteOrder (k : Fin 16) (b : Bool) : (s.keyWrite k b).vfWriteOrder = s.vfWriteOrder := rfl
@[simp] theorem keyWrite_font (k : Fin 16) (b : Bool) : (s.keyWrite k b).font = s.font := rfl
@[simp] theorem keyWrite_draws (k : Fin 16) (b : Bool) : (s.keyWrite k b).draws = s.draws := rfl
@[simp] theorem keyWrite_events (k : Fin 16) (b : Bool) : (s.keyWrite k b).events = [] := rfl

/-! ## drawAck -/

@[simp] theorem drawAck_memory : (s.drawAck).memory = s.memory := rfl
@[simp] theorem drawAck_V : (s.drawAck).V = s.V := rfl
@[simp] theorem drawAck_I : (s.drawAck).I = s.I := rfl
@[simp] theorem drawAck_pc : (s.drawAck).pc = s.pc := rfl
@[simp] theorem drawAck_stack : (s.drawAck).stack = s.stack := rfl
@[simp] theorem drawAck_sp : (s.drawAck).sp = s.sp := rfl
@[simp] theorem drawAck_dt : (s.drawAck).dt = s.dt := rfl
@[simp] theorem drawAck_st : (s.drawAck).st = s.st := rfl
@[simp] theorem drawAck_keypad : (s.drawAck).keypad = s.keypad := rfl
@[simp] theorem drawAck_display : (s.drawAck).display = s.display := rfl
@[simp] theorem drawAck_drawFlag : (s.drawAck).drawFlag = false := rfl
@[simp] theorem drawAck_halted : (s.drawAck).halted = s.halted := rfl
@[simp] theorem drawAck_fault : (s.drawAck).fault = s.fault := rfl
@[simp] theorem drawAck_legacyMode : (s.drawAck).legacyMode = s.legacyMode := rfl
@[simp] theorem drawAck_vfWriteOrder : (s.drawAck).vfWriteOrder = s.vfWriteOrder := rfl
@[simp] theorem drawAck_font : (s.drawAck).font = s.font := rfl
@[simp] theorem drawAck_draws : (s.drawAck).draws = s.draws := rfl
@[simp] theorem drawAck_events : (s.drawAck).events = [] := rfl

/-! ## tick -/

@[simp] theorem tick_memory : (s.tick).memory = s.memory := by
  unfold State.tick; split <;> rfl
@[simp] theorem tick_V : (s.tick).V = s.V := by
  unfold State.tick; split <;> rfl
@[simp] theorem tick_I : (s.tick).I = s.I := by
  unfold State.tick; split <;> rfl
@[simp] theorem tick_pc : (s.tick).pc = s.pc := by
  unfold State.tick; split <;> rfl
@[simp] theorem tick_stack : (s.tick).stack = s.stack := by
  unfold State.tick; split <;> rfl
@[simp] theorem tick_sp : (s.tick).sp = s.sp := by
  unfold State.tick; split <;> rfl
@[simp] theorem tick_keypad : (s.tick).keypad = s.keypad := by
  unfold State.tick; split <;> rfl
@[simp] theorem tick_display : (s.tick).display = s.display := by
  unfold State.tick; split <;> rfl
@[simp] theorem tick_drawFlag : (s.tick).drawFlag = s.drawFlag := by
  unfold State.tick; split <;> rfl
@[simp] theorem tick_halted : (s.tick).halted = s.halted := by
  unfold State.tick; split <;> rfl
@[simp] theorem tick_fault : (s.tick).fault = s.fault := by
  unfold State.tick; split <;> rfl
@[simp] theorem tick_legacyMode : (s.tick).legacyMode = s.legacyMode := by
  unfold State.tick; split <;> rfl
@[simp] theorem tick_vfWriteOrder : (s.tick).vfWriteOrder = s.vfWriteOrder := by
  unfold State.tick; split <;> rfl
@[simp] theorem tick_font : (s.tick).font = s.font := by
  unfold State.tick; split <;> rfl
@[simp] theorem tick_draws : (s.tick).draws = s.draws := by
  unfold State.tick; split <;> rfl

/-! ## Registers -/

@[simp] theorem getV_setV (x y : Reg) (b : Byte) : (s.setV x b).getV y = if x = y then b else s.getV y := by
  simp [State.getV, State.setV, Vector.getElem_set, Fin.ext_iff]

/-- Reading back the register just written. -/
theorem getV_setV_self (x : Reg) (b : Byte) : (s.setV x b).getV x = b := by simp

/-- A write leaves every other register alone. -/
theorem getV_setV_other {x y : Reg} (b : Byte) (h : x ≠ y) : (s.setV x b).getV y = s.getV y := by simp [h]

@[simp] theorem getV_takeFault (r : FaultRecord) (x : Reg) : (s.takeFault r).getV x = s.getV x := rfl

@[simp] theorem getV_writeBytes (a : Nat) (bs : List Byte) (x : Reg) : (s.writeBytes a bs).getV x = s.getV x := rfl

end Sys2Proof.Machine
end

