-- ==== Sys2Proof/Laws/Ops.lean ====
section
/-! SUPPORT. One lemma for each shared operation: the range check, the end of a step, the fetch, the operand forms. -/

namespace Sys2Proof.Machine

/-! ## The range check (20_memory.md R64) -/

theorem firstOutOfRange_none_iff (a n : Nat) : firstOutOfRange a n = none ↔ n = 0 ∨ a + n ≤ 0x1000 := by
  induction n generalizing a with
  | zero => simp [firstOutOfRange]
  | succ n ih =>
    simp only [firstOutOfRange, memSize_eq]
    split
    · simp; omega
    · rw [ih]; omega

/-- The check passes when every address lies inside memory. -/
theorem firstOutOfRange_inside {a n : Nat} (h : a + n ≤ 0x1000) : firstOutOfRange a n = none :=
  (firstOutOfRange_none_iff a n).mpr (.inr h)

/-- The check names the lowest address outside memory. -/
theorem firstOutOfRange_outside {a n : Nat} (hn : n ≠ 0) (h : 0x1000 < a + n) :
    firstOutOfRange a n = some (max a 0x1000) := by
  induction n generalizing a with
  | zero => exact absurd rfl hn
  | succ n ih =>
    simp only [firstOutOfRange, memSize_eq]
    split
    · simp; omega
    · rw [ih (by omega) (by omega)]; congr 1; omega

/-! ## The end of a step (40_cycle_engine.md R127) -/

/-- Everything the end of a step can do. -/
theorem retire_cases (w : Word) (s : State) (h : HandlerResult) :
    (∃ code extra, retire w s h = s.takeFault ⟨code, s.pc, some w, extra⟩) ∨
    (∃ t o, h = .writes t o ∧ pcNext s.pc o < 0x1000 ∧
      retire w s h = { t with pc := BitVec.ofNat 16 (pcNext s.pc o), events := [] }) := by
  cases h with
  | raises code extra => exact .inl ⟨code, extra, rfl⟩
  | writes t o =>
    by_cases hp : 0x1000 ≤ pcNext s.pc o
    · exact .inl ⟨.pcOutOfRange, some (pcNext s.pc o), by simp [retire, hp]⟩
    · exact .inr ⟨t, o, rfl, by omega, by simp [retire, hp]⟩

/-- The writes are committed when the new pc lies inside memory. -/
theorem retire_writes {w : Word} {s t : State} {o : PcOutcome} (h : pcNext s.pc o < 0x1000) :
    retire w s (.writes t o) = { t with pc := BitVec.ofNat 16 (pcNext s.pc o), events := [] } := by
  simp [retire, Nat.not_le.mpr h]

/-- PcOutOfRange, with none of the writes, when it does not. -/
theorem retire_outOfRange {w : Word} {s t : State} {o : PcOutcome} (h : 0x1000 ≤ pcNext s.pc o) :
    retire w s (.writes t o) = s.takeFault ⟨.pcOutOfRange, s.pc, some w, some (pcNext s.pc o)⟩ := by
  simp [retire, h]

@[simp] theorem retire_raises (w : Word) (s : State) (code : FaultCode) (extra : Option Nat) :
    retire w s (.raises code extra) = s.takeFault ⟨code, s.pc, some w, extra⟩ := rfl

/-- The plain advance as bit-vector addition. -/
theorem ofNat_pc_add (pc : Word) (k : Nat) : BitVec.ofNat 16 (pc.toNat + k) = pc + BitVec.ofNat 16 k := by
  simp [BitVec.ofNat_add]

/-! ## Fetch -/

@[simp] theorem placeWord_pc (s : State) (w : Word) : (s.placeWord w).pc = s.pc := by
  unfold State.placeWord; split <;> rfl

@[simp] theorem placeWord_halted (s : State) (w : Word) : (s.placeWord w).halted = s.halted := by
  unfold State.placeWord; split <;> rfl

/-- The word placed is the word fetched. -/
theorem fetchWord_placeWord (s : State) (w : Word) (h : s.pc.toNat ≤ 0xFFE) : (s.placeWord w).fetchWord = w := by
  have hc : s.canFetch = true := by simpa [State.canFetch] using h
  unfold State.fetchWord
  simp only [State.placeWord, hc, if_true, readByte_writeBytes, writeBytes_pc]
  simpa using wordOfBytes_halves w

/-! ## Operand forms -/

theorem zext16_eq (nnn : Addr12) : zext16 nnn = BitVec.ofNat 16 nnn.toNat := by
  apply BitVec.eq_of_toNat_eq; simp [zext16]

theorem zext16_toNat (nnn : Addr12) : (zext16 nnn).toNat = nnn.toNat := by
  have := nnn.isLt
  simp only [zext16, BitVec.toNat_setWidth]; omega

theorem bcdDigits_length (b : Byte) : (bcdDigits b).length = 3 := rfl

theorem registersUpTo_length (s : State) (x : Reg) : (s.registersUpTo x).length = x.val + 1 := by
  simp [State.registersUpTo]

theorem registersUpTo_getElem (s : State) (x : Reg) (k : Nat) (h : k < (s.registersUpTo x).length) :
    (s.registersUpTo x)[k] = s.V[k]'(by rw [registersUpTo_length] at h; omega) := by
  simp [State.registersUpTo]

/-- The registers loaded from `k` on, and no other. -/
theorem loadRegisters_getElem (bs : List Byte) (v : Vector Byte 16) (k j : Nat) (hj : j < 16) :
    (loadRegisters v k bs)[j] = if h : k ≤ j ∧ j < k + bs.length then bs[j - k]'(by omega) else v[j] := by
  induction bs generalizing v k with
  | nil => simp [loadRegisters]
  | cons b bs ih =>
    simp only [loadRegisters, ih, List.length_cons]
    by_cases hkj : k = j
    · subst hkj; simp [hj]
    · by_cases hin : k + 1 ≤ j ∧ j < k + 1 + bs.length
      · have h2 : k ≤ j ∧ j < k + (bs.length + 1) := by omega
        have h3 : j - k = (j - (k + 1)) + 1 := by omega
        simp [hin, h2, h3]
      · have h2 : ¬(k ≤ j ∧ j < k + (bs.length + 1)) := by omega
        rw [dif_neg hin, dif_neg h2]
        split
        · simp [hkj]
        · rfl

/-- No key is pressed. -/
theorem lowestKey_none_iff (s : State) : s.lowestKey = none ↔ ∀ k : Fin 16, s.keypad[k.val] = false := by
  simp [State.lowestKey]

/-- The key found is pressed, and none below it is. -/
theorem lowestKey_some {s : State} {k : Fin 16} (h : s.lowestKey = some k) :
    s.keypad[k.val] = true ∧ ∀ j : Fin 16, j < k → s.keypad[j.val] = false := by
  unfold State.lowestKey at h
  obtain ⟨hk, as, bs, hab, hno⟩ := List.find?_eq_some_iff_append.mp h
  refine ⟨hk, fun j hj => ?_⟩
  have hs : (List.finRange 16).Pairwise (· < ·) := List.pairwise_lt_finRange 16
  have hm : j ∈ List.finRange 16 := List.mem_finRange j
  rw [hab] at hs hm
  rcases List.mem_append.mp hm with hm | hm
  · simpa using hno j hm
  · rcases List.mem_cons.mp hm with rfl | hm
    · exact absurd hj (lt_irrefl _)
    · have := (List.pairwise_cons.mp (List.pairwise_append.mp hs).2.1).1 j hm
      exact absurd hj (not_lt.mpr (le_of_lt this))

/-! ## Flags -/

theorem carryOut_eq (a b : Byte) : carryOut a b = if 255 < a.toNat + b.toNat then 1 else 0 := by
  simp [carryOut, flagByte]

theorem notBorrow_eq (a b : Byte) : notBorrow a b = if b.toNat < a.toNat then 1 else 0 := by
  simp [notBorrow, flagByte]

theorem shiftedOutRight_eq (a : Byte) : shiftedOutRight a = BitVec.ofNat 8 (a.toNat % 2) := by
  apply BitVec.eq_of_toNat_eq; simp [shiftedOutRight]; omega

theorem shiftedOutLeft_eq (a : Byte) : shiftedOutLeft a = BitVec.ofNat 8 (a.toNat / 128) := by
  apply BitVec.eq_of_toNat_eq; simp [shiftedOutLeft, Nat.shiftRight_eq_div_pow]; omega

/-- A result and its flag where the result's register is not VF: both writes land (42_register_alu.md R179). -/
theorem writeRF_V {s : State} {o : ListedOrder} {x : Reg} {r f : Byte} (h : x ≠ VF) :
    (s.writeRF o x r f).V = (s.V.set x.val r).set 15 f := by
  have hx : x.val ≠ 15 := fun e => h (Fin.ext e)
  unfold State.writeRF
  split
  · rfl
  · simp only [setV_V]; exact (Vector.set_comm _ _ (by simpa using hx)).symm

/-- Where both name VF, the later write remains (42_register_alu.md R179). -/
theorem writeRF_VF (s : State) (o : ListedOrder) (r f : Byte) :
    (s.writeRF o VF r f).V = s.V.set 15 (if flagIsLater s.vfWriteOrder o then f else r) := by
  unfold State.writeRF
  split <;> simp [State.setV, VF]

end Sys2Proof.Machine
end

