-- ==== Sys2Proof/Laws/Exec.lean ====
section
/-! SUPPORT. What every instruction can do, said once: it takes a fault, or commits writes that leave the inputs, the
configuration and the fault state alone. -/

namespace Sys2Proof.Machine

/-- What no handler writes: keypad, configuration, parameters, halted and fault (10_state.md section 1). -/
structure Untouched (s t : State) : Prop where
  keypad : t.keypad = s.keypad
  legacyMode : t.legacyMode = s.legacyMode
  vfWriteOrder : t.vfWriteOrder = s.vfWriteOrder
  font : t.font = s.font
  halted : t.halted = s.halted
  fault : t.fault = s.fault

/-- A handler's result whose writes leave `Untouched` alone. -/
def HandlerResult.Ok (s : State) : HandlerResult → Prop
  | .raises _ _ => True
  | .writes t _ => Untouched s t

theorem Untouched.refl (s : State) : Untouched s s := ⟨rfl, rfl, rfl, rfl, rfl, rfl⟩

theorem untouched_setV (s : State) (x : Reg) (b : Byte) : Untouched s (s.setV x b) := ⟨rfl, rfl, rfl, rfl, rfl, rfl⟩

theorem untouched_writeRF (s : State) (o : ListedOrder) (x : Reg) (r f : Byte) : Untouched s (s.writeRF o x r f) := by
  constructor <;> simp

/-- Every instruction ends its step through `retire`. -/
theorem exec_retires (i : Instr) (s : State) :
    ∃ h : HandlerResult, h.Ok s ∧ exec i s = .next (retire (encode i) s h) := by
  cases i <;> refine ⟨_, ?_, rfl⟩
  case ret | callAddr | drwVxVyN | skpVx | sknpVx | ldVxK | ldBVx | ldMemVx | ldVxMem =>
    split <;> first | trivial | exact ⟨rfl, rfl, rfl, rfl, rfl, rfl⟩
  all_goals first | exact Untouched.refl s | exact untouched_setV _ _ _ | exact untouched_writeRF _ _ _ _ _ |
    exact ⟨rfl, rfl, rfl, rfl, rfl, rfl⟩

/-- The two ways an instruction's step ends. -/
theorem exec_cases (i : Instr) (s : State) :
    (∃ code extra, exec i s = .next (s.takeFault ⟨code, s.pc, some (encode i), extra⟩)) ∨
    (∃ t n, n < 0x1000 ∧ Untouched s t ∧ exec i s = .next { t with pc := BitVec.ofNat 16 n, events := [] }) := by
  obtain ⟨h, ok, he⟩ := exec_retires i s
  rcases retire_cases (encode i) s h with ⟨code, extra, hr⟩ | ⟨t, o, rfl, hn, hr⟩
  · exact .inl ⟨code, extra, by rw [he, hr]⟩
  · exact .inr ⟨t, _, hn, ok, by rw [he, hr]⟩

/-! ## Where `step` goes -/

theorem step_halted {s : State} (h : s.halted = true) : step s = .fault (.halted s.fault) := by simp [step, h]

theorem step_fetch_fault {s : State} (h : s.halted = false) (hp : 0xFFE < s.pc.toNat) :
    step s = .next s.takeFetchFault := by
  have : s.canFetch = false := by simpa [State.canFetch] using hp
  simp [step, h, this]

theorem step_decoded {s : State} {i : Instr} (h : s.halted = false) (hp : s.pc.toNat ≤ 0xFFE)
    (hd : decode s.fetchWord = .ok i) : step s = exec i s := by
  have : s.canFetch = true := by simpa [State.canFetch] using hp
  simp [step, h, this, hd]

theorem step_unknown {s : State} {e : DecodeError} (h : s.halted = false) (hp : s.pc.toNat ≤ 0xFFE)
    (hd : decode s.fetchWord = .error e) : step s = .next (s.unknownOpcode s.fetchWord) := by
  have : s.canFetch = true := by simpa [State.canFetch] using hp
  simp [step, h, this, hd]

end Sys2Proof.Machine
end

