-- ==== Sys2Proof/Laws/PerInstr.lean ====
section
/-! SUPPORT. One lemma per instruction: its word has the fixed bits of its row of the opcode table (30_encoding.md R93,
R95). -/

namespace Sys2Proof.Laws

open Sys2Proof

/-- The fixed bits of an instruction's row of spec/opcode_table.json. -/
def Encoding.row (i : Instr) : Option OpcodeRow := opcodeRows.find? (fun r => r.mnemonic == i.mnemonic)

/-- The instruction's row exists and matches its word. -/
def Encoding.Statement (i : Instr) : Prop := ∃ r, Encoding.row i = some r ∧ r.matchesWord (encode i) = true

theorem Encoding.formatAddr_mask (op : Nibble) (nnn : Addr12) : formatAddr op nnn &&& 0xF000 = op ++ (0 : Addr12) := by
  unfold formatAddr
  apply BitVec.eq_of_getLsbD_eq
  intro i hi
  rw [BitVec.getLsbD_and, BitVec.getLsbD_append, BitVec.getLsbD_append]
  interval_cases i <;> simp

theorem Encoding.formatRegImm_mask (op : Nibble) (x : Reg) (kk : Byte) :
    formatRegImm op x kk &&& 0xF000 = op ++ (0 : Addr12) := by
  unfold formatRegImm
  apply BitVec.eq_of_getLsbD_eq
  intro i hi
  rw [BitVec.getLsbD_and, BitVec.getLsbD_append, BitVec.getLsbD_append, BitVec.getLsbD_append]
  interval_cases i <;> simp

theorem Encoding.formatRegSub_mask (op : Nibble) (x : Reg) (kk : Byte) :
    formatRegImm op x kk &&& 0xF0FF = op ++ (0 : Nibble) ++ kk := by
  unfold formatRegImm
  apply BitVec.eq_of_getLsbD_eq
  intro i hi
  rw [BitVec.getLsbD_and, BitVec.getLsbD_append, BitVec.getLsbD_append, BitVec.getLsbD_append, BitVec.getLsbD_append]
  interval_cases i <;> simp

theorem Encoding.formatRegReg_mask (op : Nibble) (x y : Reg) (n : Nibble) :
    formatRegReg op x y n &&& 0xF00F = op ++ (0 : Byte) ++ n := by
  unfold formatRegReg
  apply BitVec.eq_of_getLsbD_eq
  intro i hi
  rw [BitVec.getLsbD_and, BitVec.getLsbD_append, BitVec.getLsbD_append, BitVec.getLsbD_append, BitVec.getLsbD_append,
    BitVec.getLsbD_append]
  interval_cases i <;> simp

theorem Encoding.formatDraw_mask (op : Nibble) (x y : Reg) (n : Nibble) :
    formatRegReg op x y n &&& 0xF000 = op ++ (0 : Addr12) := by
  unfold formatRegReg
  apply BitVec.eq_of_getLsbD_eq
  intro i hi
  rw [BitVec.getLsbD_and, BitVec.getLsbD_append, BitVec.getLsbD_append, BitVec.getLsbD_append, BitVec.getLsbD_append]
  interval_cases i <;> simp

theorem Encoding.cls : Encoding.Statement (.cls) :=
  ⟨_, rfl, by decide⟩

theorem Encoding.ret : Encoding.Statement (.ret) :=
  ⟨_, rfl, by decide⟩

theorem Encoding.jpAddr (nnn : Addr12) : Encoding.Statement (.jpAddr nnn) :=
  ⟨_, rfl, by simp only [OpcodeRow.matchesWord, encode, Encoding.formatAddr_mask]; decide⟩

theorem Encoding.callAddr (nnn : Addr12) : Encoding.Statement (.callAddr nnn) :=
  ⟨_, rfl, by simp only [OpcodeRow.matchesWord, encode, Encoding.formatAddr_mask]; decide⟩

theorem Encoding.seVxKk (x : Reg) (kk : Byte) : Encoding.Statement (.seVxKk x kk) :=
  ⟨_, rfl, by simp only [OpcodeRow.matchesWord, encode, Encoding.formatRegImm_mask]; decide⟩

theorem Encoding.sneVxKk (x : Reg) (kk : Byte) : Encoding.Statement (.sneVxKk x kk) :=
  ⟨_, rfl, by simp only [OpcodeRow.matchesWord, encode, Encoding.formatRegImm_mask]; decide⟩

theorem Encoding.seVxVy (x y : Reg) : Encoding.Statement (.seVxVy x y) :=
  ⟨_, rfl, by simp only [OpcodeRow.matchesWord, encode, Encoding.formatRegReg_mask]; decide⟩

theorem Encoding.ldVxKk (x : Reg) (kk : Byte) : Encoding.Statement (.ldVxKk x kk) :=
  ⟨_, rfl, by simp only [OpcodeRow.matchesWord, encode, Encoding.formatRegImm_mask]; decide⟩

theorem Encoding.addVxKk (x : Reg) (kk : Byte) : Encoding.Statement (.addVxKk x kk) :=
  ⟨_, rfl, by simp only [OpcodeRow.matchesWord, encode, Encoding.formatRegImm_mask]; decide⟩

theorem Encoding.ldVxVy (x y : Reg) : Encoding.Statement (.ldVxVy x y) :=
  ⟨_, rfl, by simp only [OpcodeRow.matchesWord, encode, Encoding.formatRegReg_mask]; decide⟩

theorem Encoding.orVxVy (x y : Reg) : Encoding.Statement (.orVxVy x y) :=
  ⟨_, rfl, by simp only [OpcodeRow.matchesWord, encode, Encoding.formatRegReg_mask]; decide⟩

theorem Encoding.andVxVy (x y : Reg) : Encoding.Statement (.andVxVy x y) :=
  ⟨_, rfl, by simp only [OpcodeRow.matchesWord, encode, Encoding.formatRegReg_mask]; decide⟩

theorem Encoding.xorVxVy (x y : Reg) : Encoding.Statement (.xorVxVy x y) :=
  ⟨_, rfl, by simp only [OpcodeRow.matchesWord, encode, Encoding.formatRegReg_mask]; decide⟩

theorem Encoding.addVxVy (x y : Reg) : Encoding.Statement (.addVxVy x y) :=
  ⟨_, rfl, by simp only [OpcodeRow.matchesWord, encode, Encoding.formatRegReg_mask]; decide⟩

theorem Encoding.subVxVy (x y : Reg) : Encoding.Statement (.subVxVy x y) :=
  ⟨_, rfl, by simp only [OpcodeRow.matchesWord, encode, Encoding.formatRegReg_mask]; decide⟩

theorem Encoding.shrVx (x y : Reg) : Encoding.Statement (.shrVx x y) :=
  ⟨_, rfl, by simp only [OpcodeRow.matchesWord, encode, Encoding.formatRegReg_mask]; decide⟩

theorem Encoding.subnVxVy (x y : Reg) : Encoding.Statement (.subnVxVy x y) :=
  ⟨_, rfl, by simp only [OpcodeRow.matchesWord, encode, Encoding.formatRegReg_mask]; decide⟩

theorem Encoding.shlVx (x y : Reg) : Encoding.Statement (.shlVx x y) :=
  ⟨_, rfl, by simp only [OpcodeRow.matchesWord, encode, Encoding.formatRegReg_mask]; decide⟩

theorem Encoding.sneVxVy (x y : Reg) : Encoding.Statement (.sneVxVy x y) :=
  ⟨_, rfl, by simp only [OpcodeRow.matchesWord, encode, Encoding.formatRegReg_mask]; decide⟩

theorem Encoding.ldIAddr (nnn : Addr12) : Encoding.Statement (.ldIAddr nnn) :=
  ⟨_, rfl, by simp only [OpcodeRow.matchesWord, encode, Encoding.formatAddr_mask]; decide⟩

theorem Encoding.jpV0Addr (nnn : Addr12) : Encoding.Statement (.jpV0Addr nnn) :=
  ⟨_, rfl, by simp only [OpcodeRow.matchesWord, encode, Encoding.formatAddr_mask]; decide⟩

theorem Encoding.rndVxKk (x : Reg) (kk : Byte) : Encoding.Statement (.rndVxKk x kk) :=
  ⟨_, rfl, by simp only [OpcodeRow.matchesWord, encode, Encoding.formatRegImm_mask]; decide⟩

theorem Encoding.drwVxVyN (x y : Reg) (n : Nat) : Encoding.Statement (.drwVxVyN x y n) :=
  ⟨_, rfl, by simp only [OpcodeRow.matchesWord, encode, Encoding.formatDraw_mask]; decide⟩

theorem Encoding.skpVx (x : Reg) : Encoding.Statement (.skpVx x) :=
  ⟨_, rfl, by simp only [OpcodeRow.matchesWord, encode, Encoding.formatRegSub_mask]; decide⟩

theorem Encoding.sknpVx (x : Reg) : Encoding.Statement (.sknpVx x) :=
  ⟨_, rfl, by simp only [OpcodeRow.matchesWord, encode, Encoding.formatRegSub_mask]; decide⟩

theorem Encoding.ldVxDt (x : Reg) : Encoding.Statement (.ldVxDt x) :=
  ⟨_, rfl, by simp only [OpcodeRow.matchesWord, encode, Encoding.formatRegSub_mask]; decide⟩

theorem Encoding.ldVxK (x : Reg) : Encoding.Statement (.ldVxK x) :=
  ⟨_, rfl, by simp only [OpcodeRow.matchesWord, encode, Encoding.formatRegSub_mask]; decide⟩

theorem Encoding.ldDtVx (x : Reg) : Encoding.Statement (.ldDtVx x) :=
  ⟨_, rfl, by simp only [OpcodeRow.matchesWord, encode, Encoding.formatRegSub_mask]; decide⟩

theorem Encoding.ldStVx (x : Reg) : Encoding.Statement (.ldStVx x) :=
  ⟨_, rfl, by simp only [OpcodeRow.matchesWord, encode, Encoding.formatRegSub_mask]; decide⟩

theorem Encoding.addIVx (x : Reg) : Encoding.Statement (.addIVx x) :=
  ⟨_, rfl, by simp only [OpcodeRow.matchesWord, encode, Encoding.formatRegSub_mask]; decide⟩

theorem Encoding.ldFVx (x : Reg) : Encoding.Statement (.ldFVx x) :=
  ⟨_, rfl, by simp only [OpcodeRow.matchesWord, encode, Encoding.formatRegSub_mask]; decide⟩

theorem Encoding.ldBVx (x : Reg) : Encoding.Statement (.ldBVx x) :=
  ⟨_, rfl, by simp only [OpcodeRow.matchesWord, encode, Encoding.formatRegSub_mask]; decide⟩

theorem Encoding.ldMemVx (x : Reg) : Encoding.Statement (.ldMemVx x) :=
  ⟨_, rfl, by simp only [OpcodeRow.matchesWord, encode, Encoding.formatRegSub_mask]; decide⟩

theorem Encoding.ldVxMem (x : Reg) : Encoding.Statement (.ldVxMem x) :=
  ⟨_, rfl, by simp only [OpcodeRow.matchesWord, encode, Encoding.formatRegSub_mask]; decide⟩

end Sys2Proof.Laws
end

