-- ==== Sys2Proof/Tests/Slice0.lean ====
section
/-! SUPPORT. Tests with results from spec/95_test_vectors.md (V<n>, W<n>) or by hand from the rules, and a witness for the
hypotheses of each statement. -/

namespace Sys2Proof.Tests

open Sys2Proof Sys2Proof.Machine Sys2Proof.Claims

/-! ## Well-formedness -/

theorem test_wellformed_sprite_height_16_refused : ¬(Instr.drwVxVyN 0 0 16).WellFormed := by decide
theorem test_wellformed_sprite_height_15 : (Instr.drwVxVyN 0 0 15).WellFormed := by decide

/-! ## Decoding: words written out from 30_encoding.md R95 -/

theorem test_decode_family0 :
    decode 0x00E0 = .ok .cls ∧ decode 0x00EE = .ok .ret ∧ decode 0x0123 = .error (.unknownOpcode 0x0123) ∧
    decode 0x01E0 = .error (.unknownOpcode 0x01E0) := by decide
theorem test_decode_addr_forms :
    decode 0x1ABC = .ok (.jpAddr 0xABC) ∧ decode 0x2ABC = .ok (.callAddr 0xABC) ∧ decode 0xA123 = .ok (.ldIAddr 0x123) ∧
    decode 0xBFF8 = .ok (.jpV0Addr 0xFF8) := by decide
theorem test_decode_reg_imm_forms :
    decode 0x3A42 = .ok (.seVxKk 0xA 0x42) ∧ decode 0x4B43 = .ok (.sneVxKk 0xB 0x43) ∧
    decode 0x6C05 = .ok (.ldVxKk 0xC 0x05) ∧ decode 0x7DFE = .ok (.addVxKk 0xD 0xFE) ∧
    decode 0xC30F = .ok (.rndVxKk 3 0x0F) := by decide
theorem test_decode_skip_reg_forms :
    decode 0x5120 = .ok (.seVxVy 1 2) ∧ decode 0x9AB0 = .ok (.sneVxVy 0xA 0xB) ∧
    decode 0x5121 = .error (.unknownOpcode 0x5121) ∧ decode 0x9128 = .error (.unknownOpcode 0x9128) := by decide
theorem test_decode_family8 :
    decode 0x8AB0 = .ok (.ldVxVy 0xA 0xB) ∧ decode 0x8AB1 = .ok (.orVxVy 0xA 0xB) ∧
    decode 0x8AB2 = .ok (.andVxVy 0xA 0xB) ∧ decode 0x8AB3 = .ok (.xorVxVy 0xA 0xB) ∧
    decode 0x8AB4 = .ok (.addVxVy 0xA 0xB) ∧ decode 0x8AB5 = .ok (.subVxVy 0xA 0xB) ∧
    decode 0x8AB6 = .ok (.shrVx 0xA 0xB) ∧ decode 0x8AB7 = .ok (.subnVxVy 0xA 0xB) ∧
    decode 0x8ABE = .ok (.shlVx 0xA 0xB) ∧ decode 0x8AB8 = .error (.unknownOpcode 0x8AB8) ∧
    decode 0x8ABF = .error (.unknownOpcode 0x8ABF) := by decide
theorem test_decode_draw : decode 0xD12F = .ok (.drwVxVyN 1 2 15) := by decide
theorem test_decode_familyE :
    decode 0xE59E = .ok (.skpVx 5) ∧ decode 0xE5A1 = .ok (.sknpVx 5) ∧ decode 0xE5F0 = .error (.unknownOpcode 0xE5F0) := by
  decide
theorem test_decode_familyF :
    decode 0xF207 = .ok (.ldVxDt 2) ∧ decode 0xF30A = .ok (.ldVxK 3) ∧ decode 0xF115 = .ok (.ldDtVx 1) ∧
    decode 0xF118 = .ok (.ldStVx 1) ∧ decode 0xF21E = .ok (.addIVx 2) ∧ decode 0xF329 = .ok (.ldFVx 3) ∧
    decode 0xF033 = .ok (.ldBVx 0) ∧ decode 0xF255 = .ok (.ldMemVx 2) ∧ decode 0xFF65 = .ok (.ldVxMem 0xF) ∧
    decode 0xF075 = .error (.unknownOpcode 0xF075) := by decide
theorem test_decode_bytes_big_endian :
    decodeBytes [0x8A, 0xB4, 0x12] = .ok (.addVxVy 0xA 0xB, [0x12]) ∧ decodeBytes [0x8A] = .error (.truncated 1) := by decide
theorem test_decode_table_rows :
    opcodeRows.all (fun r => (decodeTableWord 16 r.pattern.toNat).map Instr.mnemonic == some r.mnemonic) = true := by decide
theorem test_encode_bytes : encodeBytes (.drwVxVyN 1 2 3) = [0xD1, 0x23] ∧ encodeBytes (.ldMemVx 4) = [0xF4, 0x55] := by decide
theorem test_assembler_text : (Instr.ldMemVx 3).asm = "LD [I],V3" ∧ (Instr.jpAddr 0x200).asm = "JP 0x200" ∧
    (assembledShr 1).asm = "SHR V1" ∧ encode (assembledShr 1) = 0x8106 := by decide

/-! ## Helpers: a small state, and one step of a word placed at pc -/

/-- The session-start state with a font known to the tests. -/
def s0 : State := { State.reset with font := ⟨0x050, Vector.replicate 80 0xAA⟩ }

/-- One step of the word `w` at `s`'s pc answers a next state with property `p`. -/
def runs (w : Word) (s : State) (p : State → Bool) : Bool :=
  match step (s.placeWord w) with
  | .next t => p t
  | .fault _ => false
  | .refused _ => false

/-- The fault code and extra information a state holds. -/
def faultOf (t : State) : Option (FaultCode × Option Nat) := t.fault.map fun r => (r.code, r.extra)

/-! ## Steps from session start itself: the font is free, no step needs it -/

theorem test_every_row_runs_from_reset :
    opcodeRows.all (fun r => match step (State.reset.withFetchWord 16 r.pattern.toNat) with
      | .next _ => true | .fault _ => false | .refused _ => false) = true := by decide
theorem test_w7_first_step :
    (match step (State.reset.withFetchWord 16 0x6005) with
      | .next t => t.getV 0 == 5 && t.pc == 0x202 | .fault _ => false | .refused _ => false) = true := by decide

/-! ## Family 0, jumps, calls, skips -/

theorem test_v1_cls : runs 0x00E0 { s0 with display := s0.display.toggle 5 }
    (fun t => !t.display.cell 5 && t.drawFlag && t.pc == 0x202) = true := by decide
theorem test_v3_ret_underflow : runs 0x00EE s0
    (fun t => t.halted && faultOf t == some (.stackUnderflow, none) && t.pc == 0x200) = true := by decide
theorem test_v4_ret : runs 0x00EE { s0 with pc := 0x300, sp := 2, stack := (s0.stack.set 0 0x202).set 1 0x30A }
    (fun t => t.pc == 0x30A && t.sp == 1 && t.stack[1] == 0x30A) = true := by decide
theorem test_v5_ret_to_0x1000 : runs 0x00EE { s0 with pc := 0x400, sp := 1, stack := s0.stack.set 0 0x1000 }
    (fun t => faultOf t == some (.pcOutOfRange, some 0x1000) && t.sp == 1 && t.pc == 0x400) = true := by decide
theorem test_v6_jp : runs 0x1123 s0 (fun t => t.pc == 0x123) = true := by decide
theorem test_v9_call_overflow : runs 0x2300 { s0 with sp := 16 }
    (fun t => faultOf t == some (.stackOverflow, none) && t.sp == 16 && t.pc == 0x200) = true := by decide
theorem test_v10_call_at_top : runs 0x2400 { s0 with pc := 0xFFE }
    (fun t => t.stack[0] == 0x1000 && t.sp == 1 && t.pc == 0x400 && !t.halted) = true := by decide
theorem test_v12_se_taken : runs 0x3342 (s0.setV 3 0x42) (fun t => t.pc == 0x204) = true := by decide
theorem test_v14_se_past_top : runs 0x3342 { s0.setV 3 0x42 with pc := 0xFFC }
    (fun t => faultOf t == some (.pcOutOfRange, some 0x1000)) = true := by decide
theorem test_v17_sne_not_taken : runs 0x4342 (s0.setV 3 0x42) (fun t => t.pc == 0x202) = true := by decide
theorem test_v18_se_regs : runs 0x5120 ((s0.setV 1 7).setV 2 7) (fun t => t.pc == 0x204) = true := by decide
theorem test_v21_sne_regs : runs 0x9120 ((s0.setV 1 7).setV 2 8) (fun t => t.pc == 0x204) = true := by decide
theorem test_v20_unknown_opcode : runs 0x5121 s0
    (fun t => t.pc == 0x202 && t.events == [.unknownOpcode 0x200 0x5121] && !t.halted) = true := by decide
theorem test_v25_unknown_opcode_at_top : runs 0x0123 { s0 with pc := 0xFFE }
    (fun t => faultOf t == some (.pcOutOfRange, some 0x1000) && t.events.head? == some (.unknownOpcode 0xFFE 0x0123)) = true := by
  decide
theorem test_v8_fetch_out_of_range :
    (match step { s0 with pc := 0xFFF } with
      | .next t => t.fault == some ⟨.fetchOutOfRange, 0xFFF, none, none⟩ | .fault _ => false | .refused _ => false) = true := by
  decide
theorem test_halted_step : step { s0 with halted := true, fault := some ⟨.stackUnderflow, 0x200, some 0x00EE, none⟩ } =
    .fault (.halted (some ⟨.stackUnderflow, 0x200, some 0x00EE, none⟩)) := by rfl

/-! ## Register loads and arithmetic -/

theorem test_v27_load_vf : runs 0x6F80 (s0.setV 15 1) (fun t => t.getV 15 == 0x80) = true := by decide
theorem test_v28_add_byte_no_flag : runs 0x7203 ((s0.setV 2 0xFE).setV 15 7)
    (fun t => t.getV 2 == 1 && t.getV 15 == 7) = true := by decide
theorem test_v30_copy : runs 0x8120 ((s0.setV 1 0x10).setV 2 0x99) (fun t => t.getV 1 == 0x99) = true := by decide
theorem test_v31_or : runs 0x8121 (((s0.setV 1 0x0F).setV 2 0xF0).setV 15 5)
    (fun t => t.getV 1 == 0xFF && t.getV 15 == 5) = true := by decide
theorem test_v32_and : runs 0x8122 ((s0.setV 1 0x3C).setV 2 0x0F) (fun t => t.getV 1 == 0x0C) = true := by decide
theorem test_v33_xor : runs 0x8123 ((s0.setV 1 0x3C).setV 2 0x0F) (fun t => t.getV 1 == 0x33) = true := by decide
theorem test_v36_add_carry : runs 0x8124 ((s0.setV 1 0x80).setV 2 0x80)
    (fun t => t.getV 1 == 0 && t.getV 15 == 1) = true := by decide
theorem test_v39_add_reads_old_vf : runs 0x81F4 ((s0.setV 1 1).setV 15 0xFF)
    (fun t => t.getV 1 == 0 && t.getV 15 == 1) = true := by decide
theorem test_v42_sub_equal : runs 0x8125 (((s0.setV 1 5).setV 2 5).setV 15 9)
    (fun t => t.getV 1 == 0 && t.getV 15 == 0) = true := by decide
theorem test_v44_sub_reads_old_vf : runs 0x81F5 ((s0.setV 1 5).setV 15 3)
    (fun t => t.getV 1 == 2 && t.getV 15 == 1) = true := by decide
theorem test_v46_shr_ignores_vy : runs 0x8156 ((s0.setV 1 2).setV 5 0xFF)
    (fun t => t.getV 1 == 1 && t.getV 15 == 0) = true := by decide
theorem test_v45_shr : runs 0x8106 (s0.setV 1 0x81) (fun t => t.getV 1 == 0x40 && t.getV 15 == 1) = true := by decide
theorem test_v50_subn : runs 0x8127 ((s0.setV 1 0x10).setV 2 1)
    (fun t => t.getV 1 == 0xF1 && t.getV 15 == 0) = true := by decide
theorem test_v49_subn : runs 0x8127 ((s0.setV 1 1).setV 2 0x10)
    (fun t => t.getV 1 == 0x0F && t.getV 15 == 1) = true := by decide
theorem test_v52_shl : runs 0x810E (s0.setV 1 0x81) (fun t => t.getV 1 == 2 && t.getV 15 == 1) = true := by decide
/-- V38, V43, V48, V55 under the three values of VF_WRITE_ORDER. -/
theorem test_vf_destination_by_order :
    ([(.listed, 1, 2, 1, 0), (.flagLast, 1, 1, 0, 1), (.resultLast, 0, 2, 1, 0)] : List (VfWriteOrder × _)).all
      (fun (o, add, sub, shr, shl) =>
        let s := { s0 with vfWriteOrder := o }
        runs 0x8FE4 ((s.setV 15 0xFF).setV 14 1) (fun t => t.getV 15 == add) &&
        runs 0x8F05 ((s.setV 15 5).setV 0 3) (fun t => t.getV 15 == sub) &&
        runs 0x8F06 (s.setV 15 2) (fun t => t.getV 15 == shr) &&
        runs 0x8F0E (s.setV 15 0x80) (fun t => t.getV 15 == shl)) = true := by decide

/-! ## Index, indexed jump, random, draw -/

theorem test_v57_ld_i : runs 0xA123 { s0 with I := 0xFFFF } (fun t => t.I == 0x0123) = true := by decide
theorem test_v61_jp_v0 : runs 0xB300 ((s0.setV 0 4).setV 3 0x99) (fun t => t.pc == 0x304) = true := by decide
theorem test_v59_jp_v0_past_top : runs 0xBFF8 (s0.setV 0 0x10)
    (fun t => faultOf t == some (.pcOutOfRange, some 0x1008) && t.pc == 0x200) = true := by decide
/-- R212: bits that are 0 in kk are 0, for every draw of the oracle. -/
theorem test_rnd_mask (s : State) (h : s.pc = 0x200) :
    ∃ t, exec (.rndVxKk 3 0x0F) s = .next t ∧ t.getV 3 &&& 0xF0 = 0 ∧ t.draws = s.draws + 1 := by
  refine ⟨_, by rw [exec, execRndVxKk, complete, retire_writes (by simp [pcNext, h])], ?_, rfl⟩
  show (s.setV 3 (Config.randomByte s.draws &&& 0x0F)).getV 3 &&& 0xF0 = 0
  rw [getV_setV_self, BitVec.and_assoc]
  exact BitVec.and_zero
theorem test_v65_draw_wraps : runs 0xD121 ({ (s0.setV 1 62).setV 2 31 with I := 0x300 }.writeBytes 0x300 [0xF0])
    (fun t => t.display.cell 2046 && t.display.cell 2047 && t.display.cell 1984 && t.display.cell 1985 &&
      !t.display.cell 0 && t.getV 15 == 0 && t.drawFlag) = true := by decide
theorem test_v68_draw_collision :
    runs 0xD121 ({ s0 with I := 0x300, display := s0.display.toggle 0 }.writeBytes 0x300 [0x80])
    (fun t => !t.display.cell 0 && t.getV 15 == 1) = true := by decide
theorem test_v70_draw_out_of_range : runs 0xD122 { s0 with I := 0xFFF }
    (fun t => faultOf t == some (.memoryOutOfRange, some 0x1000) && !t.drawFlag) = true := by decide
theorem test_v69_draw_no_rows : runs 0xD120 { s0.setV 15 0x55 with I := 0xFFFF }
    (fun t => t.getV 15 == 0 && t.drawFlag && !t.halted) = true := by decide

/-! ## Keys, timers, index arithmetic, font, BCD, block transfer -/

theorem test_v73_skp : runs 0xE59E { s0.setV 5 0xA with keypad := s0.keypad.set 10 true } (fun t => t.pc == 0x204) = true := by
  decide
theorem test_v76_skp_key_range : runs 0xE59E (s0.setV 5 0x10)
    (fun t => faultOf t == some (.keyIndexOutOfRange, some 0x10)) = true := by decide
theorem test_v75_sknp : runs 0xE5A1 (s0.setV 5 0xA) (fun t => t.pc == 0x204) = true := by decide
theorem test_v78_read_dt : runs 0xF207 { s0 with dt := 0x3C } (fun t => t.getV 2 == 0x3C && t.dt == 0x3C) = true := by decide
theorem test_v81_key_wait_holds_at_top : runs 0xF30A { s0.setV 3 9 with pc := 0xFFE }
    (fun t => t.pc == 0xFFE && t.getV 3 == 9 && !t.halted) = true := by decide
theorem test_v80_key_wait_lowest : runs 0xF30A { s0 with keypad := (s0.keypad.set 3 true).set 9 true }
    (fun t => t.getV 3 == 3 && t.pc == 0x202) = true := by decide
theorem test_v82_set_dt : runs 0xF115 (s0.setV 1 5) (fun t => t.dt == 5) = true := by decide
theorem test_v83_set_st_no_event : runs 0xF118 { s0 with st := 7 } (fun t => t.st == 0 && t.events == []) = true := by decide
theorem test_v88_add_i : runs 0xF21E { (s0.setV 2 2).setV 15 9 with I := 0x0FFF }
    (fun t => t.I == 0x1001 && t.getV 15 == 9) = true := by decide
theorem test_v92_font_unmasked : runs 0xF329 (s0.setV 3 0xFF) (fun t => t.I == 0x050 + 1275) = true := by decide
theorem test_v93_bcd : runs 0xF033 { s0.setV 0 0xFE with I := 0x300 }
    (fun t => t.readBytes 0x300 3 == [2, 5, 4] && t.I == 0x300) = true := by decide
theorem test_v97_bcd_out_of_range : runs 0xF033 { s0.setV 0 0x0A with I := 0xFFE }
    (fun t => faultOf t == some (.memoryOutOfRange, some 0x1000) && t.readBytes 0xFFE 2 == [0, 0]) = true := by decide
theorem test_v99_store_legacy : runs 0xF255 { ((s0.setV 0 1).setV 1 2).setV 2 3 with I := 0x300, legacyMode := true }
    (fun t => t.readBytes 0x300 4 == [1, 2, 3, 0] && t.I == 0x303) = true := by decide
theorem test_v101_store_out_of_range : runs 0xFF55 { s0.setV 0 7 with I := 0xFF1 }
    (fun t => faultOf t == some (.memoryOutOfRange, some 0x1000) && t.readByte 0xFF1 == 0) = true := by decide
theorem test_v102_load : runs 0xF265 ({ s0.setV 3 9 with I := 0x300 }.writeBytes 0x300 [2, 5, 4, 8])
    (fun t => t.getV 0 == 2 && t.getV 1 == 5 && t.getV 2 == 4 && t.getV 3 == 9 && t.I == 0x300) = true := by decide
theorem test_v104_load_range_keeps_i : runs 0xF065 { s0 with I := 0xFFFF, legacyMode := true }
    (fun t => faultOf t == some (.memoryOutOfRange, some 0xFFFF) && t.I == 0xFFFF) = true := by decide

/-! ## Timers, session start, memory -/

theorem test_v84_tone_stop : ({ s0 with st := 1 }.tick).st = 0 ∧ ({ s0 with st := 1 }.tick).events = [.toneStop] := by decide
theorem test_v86_tick : ({ s0 with st := 2, dt := 5 }.tick).st = 1 ∧ ({ s0 with st := 2, dt := 5 }.tick).dt = 4 ∧
    ({ s0 with st := 2, dt := 5 }.tick).events = [] := by decide
theorem test_v87_tick_halted : ({ s0 with halted := true, dt := 5 }.tick).dt = 5 := by decide
theorem test_w8_floor : (({ s0 with dt := 2 } : State).decayTimers 3).dt = 0 := by decide
theorem test_session_start_loads_rom :
    (match sessionStart .listed s0.font ⟨true, 540⟩ [0x12, 0x00] with
      | .ok s => s.readByte 0x200 == 0x12 && s.readByte 0x050 == 0xAA && s.readByte 0x0A0 == 0 && s.legacyMode
      | .error _ => false) = true := by decide
theorem test_session_start_rejects_clock :
    (match sessionStart .listed s0.font ⟨false, 0⟩ [] with
      | .ok _ => none | .error e => some e) = some .malformedConfiguration := by decide
theorem test_memory_canonical :
    ((s0.writeBytes 0x300 [1, 2]).writeBytes 0x300 [0]).memory = [(0x301, 2)] ∧
    (s0.writeBytes 0x050 [0xAA]).memory = [] ∧ (s0.writeBytes 0x050 [0]).memory = [(0x050, 0)] := by decide

/-! ## Witnesses: a concrete state and operands meet the hypotheses of each statement, at boundary values

`atPc p` is the test state with pc = p. For an instruction that completes with the plain advance, `CompletesAuto` has two
clauses, a new pc below 0x1000 and one of 0x1000 or more: pc = 0xFFD and pc = 0xFFE are the boundary. -/

/-- The test state with another pc. -/
def atPc (p : Word) : State := { s0 with pc := p }

/-- Both clauses of `CompletesAuto` are met, at the boundary. -/
theorem witness_CompletesAuto : (atPc 0xFFD).pc.toNat + 2 < 0x1000 ∧ 0x1000 ≤ (atPc 0xFFE).pc.toNat + 2 := by decide
/-- Both clauses of `CompletesAt` are met for a taken skip (pc + 4), at the boundary. -/
theorem witness_CompletesAt_skip : (atPc 0xFFB).pc.toNat + 4 < 0x1000 ∧ 0x1000 ≤ (atPc 0xFFC).pc.toNat + 4 := by decide

theorem witness_EncodedInstructionDecodesBack : (Instr.drwVxVyN 15 15 15).WellFormed := by decide
theorem witness_DecodedWordEncodesBack : decode 0xDFFF = .ok (.drwVxVyN 15 15 15) := by decide
theorem witness_StepRunsTheDecodedInstruction :
    ((atPc 0xFFE).placeWord 0x6005).halted = false ∧ ((atPc 0xFFE).placeWord 0x6005).pc.toNat ≤ 0xFFE ∧
    decode (((atPc 0xFFE).placeWord 0x6005).readByte 0xFFE ++ ((atPc 0xFFE).placeWord 0x6005).readByte 0xFFF) =
      .ok (.ldVxKk 0 5) ∧
    (atPc 0xFFF).halted = false ∧ 0xFFE < (atPc 0xFFF).pc.toNat := by decide
theorem witness_StepOnHaltedEngineReturnsRecordedFault :
    (s0.takeFault ⟨.stackUnderflow, 0x200, some 0x00EE, none⟩).halted = true := by decide
theorem witness_UnknownOpcodeIsReportedNoOp :
    ((atPc 0xFFD).placeWord 0x0123).halted = false ∧ ((atPc 0xFFD).placeWord 0x0123).pc.toNat + 2 < 0x1000 ∧
    (0x0123 : Word) = ((atPc 0xFFD).placeWord 0x0123).readByte 0xFFD ++ ((atPc 0xFFD).placeWord 0x0123).readByte 0xFFE ∧
    decode 0x0123 = .error (.unknownOpcode 0x0123) := by decide
theorem witness_UnknownOpcodeAtTopReportsDiagnosticThenFault :
    ((atPc 0xFFE).placeWord 0x0123).halted = false ∧ ((atPc 0xFFE).placeWord 0x0123).pc = 0xFFE ∧
    (0x0123 : Word) = ((atPc 0xFFE).placeWord 0x0123).readByte 0xFFE ++ ((atPc 0xFFE).placeWord 0x0123).readByte 0xFFF ∧
    decode 0x0123 = .error (.unknownOpcode 0x0123) := by decide
theorem witness_EveryStepOfARunningEngineAnswers : (atPc 0x200).halted = false := by decide
theorem witness_FaultEntryIsPrecise :
    s0.halted = false ∧ runs 0x00EE s0 (fun t => t.halted) = true := by decide
/-- Each fault an instruction can take is taken somewhere: 1, 2, 3, 5, 6 (the tests test_v9, test_v3, test_v70, test_v59 and
test_v76 show the steps). For MemoryOutOfRange: the last byte of the block alone outside, and all of it; for PcOutOfRange: each
shape of pc_next. -/
theorem witness_FaultCausesAreThoseOfTheTable :
    s0.fault = none ∧ runs 0x2300 { s0 with sp := 16 } (fun t => faultOf t == some (.stackOverflow, none)) = true ∧
    runs 0x00EE s0 (fun t => faultOf t == some (.stackUnderflow, none)) = true ∧
    runs 0xFF65 { s0 with I := 0xFF1 } (fun t => faultOf t == some (.memoryOutOfRange, some (0xFF1 + 15))) = true ∧
    runs 0xF033 { s0 with I := 0x2000 } (fun t => faultOf t == some (.memoryOutOfRange, some 0x2000)) = true ∧
    runs 0xE0A1 (s0.setV 0 16) (fun t => faultOf t == some (.keyIndexOutOfRange, some 16)) = true := by decide
theorem witness_FaultCauses_pcOutOfRange :
    runs 0x6000 (atPc 0xFFE) (fun t => faultOf t == some (.pcOutOfRange, some 0x1000)) = true ∧
    runs 0x3000 (atPc 0xFFE) (fun t => faultOf t == some (.pcOutOfRange, some 0x1002)) = true ∧
    runs 0xBFF8 (s0.setV 0 0x10) (fun t => faultOf t == some (.pcOutOfRange, some 0x1008)) = true ∧
    runs 0x00EE { s0 with sp := 1, stack := s0.stack.set 0 0x1234 }
      (fun t => faultOf t == some (.pcOutOfRange, some 0x1234)) = true ∧
    runs 0xF30A { atPc 0xFFE with keypad := s0.keypad.set 3 true }
      (fun t => faultOf t == some (.pcOutOfRange, some 0x1000)) = true := by decide
theorem witness_MemoryRangeFaultNamesLowestAddress :
    (1 ≠ 0 ∧ 0x1000 < ({ s0 with I := 0x1000 } : State).I.toNat + 1) ∧ 0x1000 < ({ s0 with I := 0xFFE } : State).I.toNat + 3 ∧
    0x1000 < ({ s0 with I := 0xFF1 } : State).I.toNat + ((15 : Reg).val + 1) := by decide

/-- The test state meets the invariant. -/
theorem s0_inv : s0.Inv :=
  ⟨by decide, nil_wf _, fun _ h => absurd h (by simp [s0, State.reset]), rfl, fun _ h => by simp [s0, State.reset] at h⟩

theorem witness_StepKeepsInvariant : s0.Inv ∧ runs 0x2300 s0 (fun t => t.sp == 1) = true := ⟨s0_inv, by decide⟩
/-- Sessions that start: an empty ROM, and one of three bytes. -/
theorem witness_AcceptedSessionStartMeetsInvariant :
    ([[], [0xFF, 0xFF, 0xFF]] : List (List Byte)).all (fun rom => match sessionStart .flagLast s0.font ⟨true, 1⟩ rom with
      | .ok _ => true | .error _ => false) = true := by decide
theorem witness_EveryHostOperationKeepsInvariant : s0.Inv := s0_inv
theorem witness_EveryHostScheduleKeepsInvariant :
    (match sessionStart .flagLast s0.font ⟨true, 1⟩ (List.replicate 3 0xFF) with
      | .ok _ => true | .error _ => false) = true := by decide
theorem witness_HaltedSessionIsFinal : (s0.takeFault ⟨.fetchOutOfRange, 0x200, none, none⟩).halted = true := by decide
/-- The frame statements' hypothesis: `exec` answers a next state, and a register, byte, entry and field that the frame names
exists (ADD V1,V2 writes neither V3 nor memory, stack, timers or display). -/
theorem witness_OnlyDestinationRegistersChange :
    (match exec (.addVxVy 1 2) s0 with | .next _ => true | .fault _ => false | .refused _ => false) = true ∧
    ¬mayWriteV (.addVxVy 1 2) 3 ∧ ¬storesTo s0 (.addVxVy 1 2) 0 := by
  refine ⟨by decide, ?_, ?_⟩ <;> simp [mayWriteV, storesTo]
/-- Each instruction the index frame names changes I from some state. -/
theorem witness_OnlyIndexInstructionsChangeI :
    runs 0xA123 s0 (fun t => t.I ≠ 0) = true ∧ runs 0xF01E (s0.setV 0 1) (fun t => t.I ≠ 0) = true ∧
    runs 0xF029 s0 (fun t => t.I ≠ 0) = true ∧ runs 0xF055 { s0 with legacyMode := true } (fun t => t.I ≠ 0) = true := by decide
/-- Just outside the stored bytes on both sides. -/
theorem witness_OnlyStoredBytesChange :
    ¬storesTo { s0 with I := 0x300 } (.ldBVx 0) 0x2FF ∧ ¬storesTo { s0 with I := 0x300 } (.ldBVx 0) 0x303 ∧
    ¬storesTo { s0 with I := 0x300 } (.ldMemVx 15) 0x310 ∧
    (match exec (.ldMemVx 15) { s0 with I := 0x300 } with | .next _ => true | .fault _ => false | .refused _ => false) = true := by
  refine ⟨?_, ?_, ?_, by decide⟩ <;> simp [storesTo, State.dataBase]
theorem witness_OnlyCallAndRetReachTheStack :
    runs 0x2300 { s0 with sp := 15 } (fun t => t.stack[15] ≠ 0 && t.sp == 16) = true ∧
    runs 0x00EE { s0 with sp := 16 } (fun t => t.sp == 15) = true := by decide
theorem witness_TimersDisplayAndInputsFrame :
    runs 0xF015 (s0.setV 0 1) (fun t => t.dt ≠ s0.dt) = true ∧ runs 0xF018 (s0.setV 0 1) (fun t => t.st ≠ s0.st) = true ∧
    runs 0x00E0 s0 (fun t => t.drawFlag ≠ s0.drawFlag) = true ∧
    ({ s0 with drawFlag := true } : State).drawFlag = true := by decide
theorem witness_OnlyRndReadsTheOracle :
    (∀ x kk, Instr.cls ≠ .rndVxKk x kk) ∧
    (match exec .cls s0 with | .next _ => true | .fault _ => false | .refused _ => false) = true := ⟨nofun, by decide⟩

theorem witness_RetPopsReturnAddress :
    s0.sp.val = 0 ∧ ({ s0 with sp := 1 } : State).sp.val = 0 + 1 ∧ ({ s0 with sp := 16 } : State).sp.val = 15 + 1 := by decide
theorem witness_CallPushesReturnAddress :
    s0.sp.val = 0 ∧ ({ s0 with sp := 15 } : State).sp.val = 15 ∧ ({ s0 with sp := 16 } : State).sp.val = 16 := by decide
theorem witness_CallThenRetReturnsAfterTheCall :
    ({ s0 with sp := 15, pc := 0xFFD } : State).sp.val < 16 ∧ ({ s0 with sp := 15, pc := 0xFFD } : State).pc.toNat < 0xFFE := by
  decide
/-- SE and SNE with a byte: equal and different, and the four new pcs at the boundary. -/
theorem witness_SkipComparesRegisterWithByte :
    (s0.setV 3 0x42).V[(3 : Reg)] = 0x42 ∧ (s0.setV 3 0x41).V[(3 : Reg)] ≠ 0x42 ∧
    (atPc 0xFFB).pc.toNat + 4 < 0x1000 ∧ 0x1000 ≤ (atPc 0xFFC).pc.toNat + 4 ∧
    (atPc 0xFFD).pc.toNat + 2 < 0x1000 ∧ 0x1000 ≤ (atPc 0xFFE).pc.toNat + 2 := by decide
theorem witness_SkipComparesTwoRegisters :
    s0.V[(1 : Reg)] = s0.V[(2 : Reg)] ∧ (s0.setV 2 1).V[(1 : Reg)] ≠ (s0.setV 2 1).V[(2 : Reg)] ∧ (0xF : Nibble) ≠ 0 ∧
    (atPc 0xFFB).pc.toNat + 4 < 0x1000 ∧ 0x1000 ≤ (atPc 0xFFC).pc.toNat + 4 := by decide

theorem witness_ClsClearsDisplay : (atPc 0xFFD).pc.toNat + 2 < 0x1000 ∧ 0x1000 ≤ (atPc 0xFFE).pc.toNat + 2 :=
  witness_CompletesAuto
theorem witness_LoadByteWritesRegister : (atPc 0xFFD).pc.toNat + 2 < 0x1000 ∧ 0x1000 ≤ (atPc 0xFFE).pc.toNat + 2 :=
  witness_CompletesAuto
theorem witness_AddByteWrapsWithoutFlag : (atPc 0xFFB).pc.toNat + 4 < 0x1000 ∧ 0x1000 ≤ (atPc 0xFFE).pc.toNat + 2 := by decide
theorem witness_CopyAndBitwiseWriteRegister : (atPc 0xFFD).pc.toNat + 2 < 0x1000 ∧ 0x1000 ≤ (atPc 0xFFE).pc.toNat + 2 :=
  witness_CompletesAuto
/-- The carry's boundary: sums 255 and 256; and both x = F and x ≠ F (`withFlag`). -/
theorem witness_AddRegistersSetsCarry : (atPc 0xFFD).pc.toNat + 2 < 0x1000 ∧ 0x1000 ≤ (atPc 0xFFE).pc.toNat + 2 ∧
    runs 0x8124 ((s0.setV 1 0xFF).setV 2 0) (fun t => t.getV 15 == 0) = true ∧
    runs 0x8124 ((s0.setV 1 0xFF).setV 2 1) (fun t => t.getV 15 == 1) = true := by decide
theorem witness_SubtractSetsNotBorrow : (atPc 0xFFD).pc.toNat + 2 < 0x1000 ∧ 0x1000 ≤ (atPc 0xFFE).pc.toNat + 2 :=
  witness_CompletesAuto
theorem witness_ShiftsSetBitShiftedOut : (atPc 0xFFD).pc.toNat + 2 < 0x1000 ∧ 0x1000 ≤ (atPc 0xFFE).pc.toNat + 2 :=
  witness_CompletesAuto
theorem witness_LoadIndexZeroExtends : (atPc 0xFFD).pc.toNat + 2 < 0x1000 ∧ 0x1000 ≤ (atPc 0xFFE).pc.toNat + 2 :=
  witness_CompletesAuto
/-- V0 + nnn = 0xFFF and 0x1000. -/
theorem witness_IndexedJumpAddsV0 :
    ((s0.setV 0 0).V[0]).toNat + (0xFFF : Addr12).toNat < 0x1000 ∧
    0x1000 ≤ ((s0.setV 0 1).V[0]).toNat + (0xFFF : Addr12).toNat := by decide
theorem witness_RandomByteIsMasked : (atPc 0xFFD).pc.toNat + 2 < 0x1000 ∧ 0x1000 ≤ (atPc 0xFFE).pc.toNat + 2 :=
  witness_CompletesAuto
/-- n = 0 with I anywhere; I + n = 0x1000 is the last range inside memory. -/
theorem witness_DrawFlipsExactlyTheSpriteCells :
    ((0 : Nibble) = 0 ∨ ({ s0 with I := 0xFFFF } : State).I.toNat + (0 : Nibble).toNat ≤ 0x1000) ∧
    ((15 : Nibble) = 0 ∨ ({ s0 with I := 0xFF1 } : State).I.toNat + (15 : Nibble).toNat ≤ 0x1000) ∧
    (atPc 0xFFD).pc.toNat + 2 < 0x1000 ∧ 0x1000 ≤ (atPc 0xFFE).pc.toNat + 2 := by decide
theorem witness_DrawingTwiceRestoresTheDisplay :
    1 < 16 ∧ s0.I.toNat + 1 ≤ 0x1000 ∧ s0.pc.toNat + 4 < 0x1000 ∧
    (match exec (.drwVxVyN 1 2 1) s0 with
      | .next t => t.V[(1 : Reg)] == s0.V[(1 : Reg)] && t.V[(2 : Reg)] == s0.V[(2 : Reg)]
      | .fault _ => false | .refused _ => false) = true := by decide
/-- Keys 0 and 15, pressed and not, and the index 16. -/
theorem witness_KeySkipsReadTheKeypad :
    (s0.setV 5 15).V[(5 : Reg)].toNat = (15 : Fin 16).val ∧ s0.V[(5 : Reg)].toNat = (0 : Fin 16).val ∧
    ({ s0 with keypad := s0.keypad.set 15 true } : State).keypad[(15 : Fin 16)] = true ∧ s0.keypad[(15 : Fin 16)] = false ∧
    15 < (s0.setV 5 16).V[(5 : Reg)].toNat ∧ (atPc 0xFFB).pc.toNat + 4 < 0x1000 := by decide
theorem witness_DelayTimerIsReadAndSet : (atPc 0xFFD).pc.toNat + 2 < 0x1000 ∧ 0x1000 ≤ (atPc 0xFFE).pc.toNat + 2 :=
  witness_CompletesAuto
theorem witness_SoundTimerIsSetSilently : (atPc 0xFFD).pc.toNat + 2 < 0x1000 ∧ 0x1000 ≤ (atPc 0xFFE).pc.toNat + 2 :=
  witness_CompletesAuto
theorem witness_KeyWaitHoldsUntilAKeyIsPressed :
    (∀ k : Fin 16, s0.keypad[k] = false) ∧ s0.pc.toNat < 0x1000 ∧
    ({ s0 with keypad := s0.keypad.set 15 true } : State).keypad[(15 : Fin 16)] = true ∧
    (∀ j : Fin 16, j < 15 → ({ s0 with keypad := s0.keypad.set 15 true } : State).keypad[j] = false) := by decide
theorem witness_AddToIndexWraps : (atPc 0xFFD).pc.toNat + 2 < 0x1000 ∧ 0x1000 ≤ (atPc 0xFFE).pc.toNat + 2 :=
  witness_CompletesAuto
theorem witness_FontGlyphAddress : (atPc 0xFFD).pc.toNat + 2 < 0x1000 ∧ 0x1000 ≤ (atPc 0xFFE).pc.toNat + 2 :=
  witness_CompletesAuto
/-- The last base that fits, and the first that does not. -/
theorem witness_StoreBcdWritesThreeDigits :
    ({ s0 with I := 0xFFD } : State).I.toNat + 2 < 0x1000 ∧ 0x1000 ≤ ({ s0 with I := 0xFFE } : State).I.toNat + 2 := by decide
theorem witness_StoreRegistersWritesBlock :
    ({ s0 with I := 0xFF0 } : State).I.toNat + (15 : Reg).val < 0x1000 ∧
    0x1000 ≤ ({ s0 with I := 0xFF1 } : State).I.toNat + (15 : Reg).val := by decide
theorem witness_LoadRegistersReadsBlock :
    ({ s0 with I := 0xFFF } : State).I.toNat + (0 : Reg).val < 0x1000 ∧
    0x1000 ≤ ({ s0 with I := 0x1000 } : State).I.toNat + (0 : Reg).val := by decide
/-- V0, V1 = 0x12, 0x00 stored at 0x202 by the instruction at 0x200. -/
theorem witness_StoredWordIsExecutedNext :
    ((s0.setV 0 0x12).halted = false ∧ 1 ≤ (1 : Reg).val ∧ (0x202 : Word).toNat = s0.pc.toNat + 2) ∧
    (0x202 : Word).toNat + (1 : Reg).val < 0x1000 ∧
    (match exec (.ldMemVx 1) { s0.setV 0 0x12 with I := 0x202 } with
      | .next t => t.readByte 0x202 == 0x12 | .fault _ => false | .refused _ => false) = true ∧
    decode ((s0.setV 0 0x12).V[0] ++ (s0.setV 0 0x12).V[1]) = .ok (.jpAddr 0x200) := by decide
theorem witness_SelfJumpRunsForever :
    ((atPc 0xFFE).placeWord 0x1FFE).halted = false ∧ ((atPc 0xFFE).placeWord 0x1FFE).pc.toNat = (0xFFE : Addr12).toNat ∧
    (0xFFE : Addr12).toNat ≤ 0xFFE ∧ ((atPc 0xFFE).placeWord 0x1FFE).fetchWord = 0x1#4 ++ (0xFFE : Addr12) := by decide
theorem witness_TickDecrementsTimers :
    ({ s0 with st := 1 } : State).halted = false ∧ ({ s0 with halted := true } : State).halted = true := by decide
theorem witness_DecayTimersCountsDown : ({ s0 with st := 255, dt := 3 } : State).halted = false := by decide
/-- A ROM of 3584 bytes is accepted and one of 3585 is not; a clock rate of 0 is malformed. -/
theorem witness_SessionStartBuildsTheState :
    (⟨false, 0⟩ : SessionConfig).clockRate ≤ 0 ∧ 0 < (⟨false, 1⟩ : SessionConfig).clockRate ∧
    (List.replicate 3584 (0 : Byte)).length ≤ 3584 ∧ 3584 < (List.replicate 3585 (0 : Byte)).length := by
  exact ⟨by decide, by decide, le_of_eq List.length_replicate, by rw [List.length_replicate]; omega⟩

end Sys2Proof.Tests
end

section
/-! PROOFS. Memory (20_memory.md): which byte an instruction's step leaves at an address, what LD [I] stores, and the two
statements of this family. -/

namespace Sys2Proof.Machine

open Sys2Proof Sys2Proof.Claims

/-! ## The byte at an address after a step -/

/-- The byte at `a` once a handler's result is committed: its writes', or the one of the state it began in when it faults
(60_exceptions.md R282). -/
def HandlerResult.byteAfter (s : State) (a : Nat) : HandlerResult → Byte
  | .raises _ _ => s.readByte a
  | .writes t _ => t.readByte a

@[simp] theorem readByte_writeRF (s : State) (o : ListedOrder) (x : Reg) (r f : Byte) (a : Nat) :
    (s.writeRF o x r f).readByte a = s.readByte a := by
  simp [State.readByte]

/-- Outside the block, consecutive writes leave every byte (20_memory.md R67). -/
theorem readByte_writeBytes_outside {s : State} {a b : Nat} {bs : List Byte} (h : ¬(a ≤ b ∧ b < a + bs.length)) :
    (s.writeBytes a bs).readByte b = s.readByte b := by
  rw [readByte_writeBytes, dif_neg h]

/-- The end of a step leaves a byte that the handler leaves: a fault commits nothing, and pc is no byte of memory. -/
theorem readByte_retire {w : Word} {s : State} {h : HandlerResult} {a : Nat} (hk : h.byteAfter s a = s.readByte a) :
    (retire w s h).readByte a = s.readByte a := by
  rcases retire_cases w s h with ⟨code, extra, hr⟩ | ⟨t, o, rfl, -, hr⟩
  · rw [hr, readByte_takeFault]
  · rw [hr]; exact hk

/-- The handler of every instruction leaves the bytes that the instruction does not store to. Only LD B and LD [I] write
memory at all (20_memory.md R60). -/
theorem exec_retires_byteAfter {i : Instr} {s : State} {a : Nat} (ha : ¬storesTo s i a) :
    ∃ h : HandlerResult, h.byteAfter s a = s.readByte a ∧ exec i s = .next (retire (encode i) s h) := by
  cases i <;> refine ⟨_, ?_, rfl⟩
  case ldBVx x =>
    split
    · rfl
    · exact readByte_writeBytes_outside ha
  case ldMemVx x =>
    split
    · rfl
    · exact readByte_writeBytes_outside (by rw [registersUpTo_length]; exact ha)
  case addVxVy | subVxVy | shrVx | subnVxVy | shlVx => exact readByte_writeRF ..
  case ret | callAddr | drwVxVyN | skpVx | sknpVx | ldVxK | ldVxMem => split <;> rfl
  all_goals rfl

/-! ## LD [I],Vx -/

/-- LD [I],Vx inside memory, with the next instruction inside memory too: the block is stored, and I and pc advance
(44_keys_timers_memory.md R250, R251). -/
theorem exec_ldMemVx_inside {s : State} {x : Reg} (hI : s.dataBase + x.val < 0x1000) (hpc : s.pc.toNat + 2 < 0x1000) :
    exec (.ldMemVx x) s = .next { s.writeBytes s.dataBase (s.registersUpTo x) with
      I := s.blockIndex x, pc := BitVec.ofNat 16 (s.pc.toNat + 2), events := [] } := by
  have hin : firstOutOfRange s.dataBase (x.val + 1) = none := firstOutOfRange_inside hI
  simp only [exec, execLdMemVx, complete, hin]
  exact congrArg Host.Outcome.next (retire_writes hpc)

/-- The k-th byte that LD [I],Vx stores is V[k] (44_keys_timers_memory.md R251). -/
theorem readByte_storedRegisters (s : State) {x : Reg} {k : Nat} (hk : k ≤ x.val) :
    (s.writeBytes s.dataBase (s.registersUpTo x)).readByte (s.dataBase + k) = s.V[k]'(by omega) := by
  have hin : s.dataBase ≤ s.dataBase + k ∧ s.dataBase + k < s.dataBase + (s.registersUpTo x).length := by
    rw [registersUpTo_length]; omega
  rw [readByte_writeBytes, dif_pos hin, registersUpTo_getElem]
  simp only [Nat.add_sub_cancel_left]

/-! ## The statements -/

/-- Settles O20: whichever instruction runs, its handler leaves the bytes it does not store to, and so does the end of its
step. -/
theorem onlyStoredBytesChange : Obligations.OnlyStoredBytesChange := by
  intro i s t he a ha
  obtain ⟨h, hk, hr⟩ := exec_retires_byteAfter ha
  obtain rfl : retire (encode i) s h = t := by simpa [hr] using he
  exact readByte_retire hk

/-- Settles O51: after the store pc is the block's base, so the next fetch reads V0 and V1 as just stored. -/
theorem storedWordIsExecutedNext : Obligations.StoredWordIsExecutedNext := by
  intro s t x i hrun hx hI hmem he hd
  have hpc : s.pc.toNat + 2 < 0x1000 := by omega
  rw [exec_ldMemVx_inside hmem hpc] at he
  obtain rfl := Host.Outcome.next.inj he
  have hnext : (BitVec.ofNat 16 (s.pc.toNat + 2)).toNat = s.dataBase := by
    rw [BitVec.toNat_ofNat, Nat.mod_eq_of_lt (by omega)]; exact hI.symm
  refine step_decoded hrun (by simp only [hnext, State.dataBase]; omega) ?_
  have h0 := readByte_storedRegisters s (Nat.zero_le x.val)
  have h1 := readByte_storedRegisters s hx
  rw [← hd]
  simp only [State.fetchWord, hnext]
  exact congrArg₂ (fun hi lo => decode (wordOfBytes hi lo)) h0 h1

end Sys2Proof.Machine
end

section
/-! PROOFS. Encoding (30_encoding.md): what the decoder answers for any word, that the rows of the opcode table exclude one
another, and the five statements of this family. -/

namespace Sys2Proof

open Sys2Proof.Laws

/-! ## A word from the fields it is known to have (30_encoding.md R93) -/

theorem formatAddr_of_fieldOp {w : Word} {op : Nibble} (hop : fieldOp w = op) : formatAddr op (fieldNnn w) = w := by
  rw [← hop, formatAddr_fields]

theorem formatRegImm_of_fieldOp {w : Word} {op : Nibble} (hop : fieldOp w = op) :
    formatRegImm op (fieldX w) (fieldKk w) = w := by
  rw [← hop, formatRegImm_fields]

theorem formatRegImm_of_fieldOp_fieldKk {w : Word} {op : Nibble} {kk : Byte} (hop : fieldOp w = op)
    (hkk : fieldKk w = kk) : formatRegImm op (fieldX w) kk = w := by
  rw [← hkk, formatRegImm_of_fieldOp hop]

theorem formatRegReg_of_fieldOp_fieldN {w : Word} {op n : Nibble} (hop : fieldOp w = op) (hn : fieldN w = n) :
    formatRegReg op (fieldX w) (fieldY w) n = w := by
  rw [← hop, ← hn, formatRegReg_fields]

/-! ## What the decoder answers (30_encoding.md R95, R97) -/

/-- The words that no row of 30_encoding.md R95 matches, family by family as R97 lists them. -/
abbrev IsUnknownOpcode (w : Word) : Prop :=
  (fieldOp w = 0x0 ∧ w ≠ 0x00E0 ∧ w ≠ 0x00EE) ∨
  (fieldOp w = 0x5 ∧ fieldN w ≠ 0x0) ∨
  (fieldOp w = 0x8 ∧ fieldN w ∈ [0x8, 0x9, 0xA, 0xB, 0xC, 0xD, 0xF]) ∨
  (fieldOp w = 0x9 ∧ fieldN w ≠ 0x0) ∨
  (fieldOp w = 0xE ∧ fieldKk w ∉ [0x9E, 0xA1]) ∨
  (fieldOp w = 0xF ∧ fieldKk w ∉ [0x07, 0x0A, 0x15, 0x18, 0x1E, 0x29, 0x33, 0x55, 0x65])

/-- A right answer for the word `w`: a well-formed instruction whose word is `w`, or the name of `w` where R97 lists it. -/
def IsDecodingOf (w : Word) : Except DecodeError Instr → Prop
  | .ok i => i.WellFormed ∧ encode i = w
  | .error e => e = .unknownOpcode w ∧ IsUnknownOpcode w

theorem decodeFamily0_isDecodingOf {w : Word} (hop : fieldOp w = 0x0) : IsDecodingOf w (decodeFamily0 w) := by
  unfold decodeFamily0
  split
  next hw => exact ⟨rfl, hw.symm⟩
  next hcls =>
    split
    next hw => exact ⟨rfl, hw.symm⟩
    next hret => exact ⟨rfl, .inl ⟨hop, hcls, hret⟩⟩

theorem requireN0_isDecodingOf {w : Word} {i : Instr} (hi : fieldN w = 0 → i.WellFormed ∧ encode i = w)
    (hop : fieldOp w = 0x5 ∨ fieldOp w = 0x9) : IsDecodingOf w (requireN0 w i) := by
  unfold requireN0
  split
  next hn => exact hi hn
  next hn =>
    rcases hop with hop | hop
    · exact ⟨rfl, .inr (.inl ⟨hop, hn⟩)⟩
    · exact ⟨rfl, .inr (.inr (.inr (.inl ⟨hop, hn⟩)))⟩

theorem decodeFamily8_isDecodingOf {w : Word} (hop : fieldOp w = 0x8) : IsDecodingOf w (decodeFamily8 w) := by
  unfold decodeFamily8
  split
  case h_10 =>
    refine ⟨rfl, .inr (.inr (.inl ⟨hop, ?_⟩))⟩
    simp only [imp_false, List.mem_cons, List.not_mem_nil, or_false] at *
    bv_omega
  all_goals exact ⟨rfl, formatRegReg_of_fieldOp_fieldN hop ‹_›⟩

theorem decodeFamilyE_isDecodingOf {w : Word} (hop : fieldOp w = 0xE) : IsDecodingOf w (decodeFamilyE w) := by
  unfold decodeFamilyE
  split
  case h_3 => exact ⟨rfl, .inr (.inr (.inr (.inr (.inl ⟨hop, by simp_all⟩))))⟩
  all_goals exact ⟨rfl, formatRegImm_of_fieldOp_fieldKk hop ‹_›⟩

theorem decodeFamilyF_isDecodingOf {w : Word} (hop : fieldOp w = 0xF) : IsDecodingOf w (decodeFamilyF w) := by
  unfold decodeFamilyF
  split
  case h_10 => exact ⟨rfl, .inr (.inr (.inr (.inr (.inr ⟨hop, by simp_all⟩))))⟩
  all_goals exact ⟨rfl, formatRegImm_of_fieldOp_fieldKk hop ‹_›⟩

/-- The decoder's answer is right for every word: the one case split over the families that the statements below need. -/
theorem decode_isDecodingOf (w : Word) : IsDecodingOf w (decode w) := by
  unfold decode
  split
  next hop => exact decodeFamily0_isDecodingOf hop
  next hop => exact ⟨rfl, formatAddr_of_fieldOp hop⟩
  next hop => exact ⟨rfl, formatAddr_of_fieldOp hop⟩
  next hop => exact ⟨rfl, formatRegImm_of_fieldOp hop⟩
  next hop => exact ⟨rfl, formatRegImm_of_fieldOp hop⟩
  next hop => exact requireN0_isDecodingOf (fun hn => ⟨rfl, formatRegReg_of_fieldOp_fieldN hop hn⟩) (.inl hop)
  next hop => exact ⟨rfl, formatRegImm_of_fieldOp hop⟩
  next hop => exact ⟨rfl, formatRegImm_of_fieldOp hop⟩
  next hop => exact decodeFamily8_isDecodingOf hop
  next hop => exact requireN0_isDecodingOf (fun hn => ⟨rfl, formatRegReg_of_fieldOp_fieldN hop hn⟩) (.inr hop)
  next hop => exact ⟨rfl, formatAddr_of_fieldOp hop⟩
  next hop => exact ⟨rfl, formatAddr_of_fieldOp hop⟩
  next hop => exact ⟨rfl, formatRegImm_of_fieldOp hop⟩
  next hop =>
    refine ⟨decide_eq_true (fieldN w).isLt, formatRegReg_of_fieldOp_fieldN hop ?_⟩
    rw [BitVec.ofNat_toNat, BitVec.setWidth_eq]
  next hop => exact decodeFamilyE_isDecodingOf hop
  next =>
    refine decodeFamilyF_isDecodingOf ?_
    simp only [imp_false] at *
    bv_omega

theorem wellFormed_encode_of_decode {w : Word} {i : Instr} (h : decode w = .ok i) : i.WellFormed ∧ encode i = w := by
  have hw := decode_isDecodingOf w
  rwa [h] at hw

theorem unknown_of_decode_error {w : Word} {e : DecodeError} (h : decode w = .error e) :
    e = .unknownOpcode w ∧ IsUnknownOpcode w := by
  have hw := decode_isDecodingOf w
  rwa [h] at hw

/-! ## The rows of the opcode table (30_encoding.md R96) -/

/-- The fixed bits of the two rows contradict each other in a place that both masks cover. -/
abbrev OpcodeRow.Excludes (r q : OpcodeRow) : Prop := r.pattern &&& q.mask ≠ q.pattern &&& r.mask

/-- No two rows match the same word (30_encoding.md R96). -/
theorem opcodeRows_pairwise_excludes : opcodeRows.Pairwise OpcodeRow.Excludes := by decide

theorem OpcodeRow.matchesWord_iff {r : OpcodeRow} {w : Word} : r.matchesWord w = true ↔ w &&& r.mask = r.pattern :=
  decide_eq_true_iff

theorem OpcodeRow.Excludes.not_both_match {r q : OpcodeRow} {w : Word} (h : r.Excludes q) (hr : r.matchesWord w = true)
    (hq : q.matchesWord w = true) : False := by
  rw [OpcodeRow.matchesWord_iff] at hr hq
  apply h
  rw [← hr, ← hq, BitVec.and_assoc, BitVec.and_assoc, BitVec.and_comm r.mask]

/-- A row of the table that matches a word is the only one that does. -/
theorem filter_matchesWord_eq_singleton {r : OpcodeRow} {w : Word} (hr : r ∈ opcodeRows)
    (hw : r.matchesWord w = true) :
    opcodeRows.filter (fun q => q.matchesWord w) = [r] := by
  have hmem : r ∈ opcodeRows.filter (fun q => q.matchesWord w) := List.mem_filter.mpr ⟨hr, hw⟩
  have hmatch : ∀ q ∈ opcodeRows.filter (fun q => q.matchesWord w), q.matchesWord w = true :=
    fun _ hq => (List.mem_filter.mp hq).2
  have hpair := opcodeRows_pairwise_excludes.filter (fun q => q.matchesWord w)
  generalize opcodeRows.filter (fun q => q.matchesWord w) = rows at hmem hmatch hpair ⊢
  match rows with
  | [] => exact absurd hmem List.not_mem_nil
  | [q] => rw [List.mem_singleton.mp hmem]
  | q :: q' :: _ =>
    have hexcl : q.Excludes q' := List.rel_of_pairwise_cons hpair List.mem_cons_self
    exact (hexcl.not_both_match (hmatch q (by simp)) (hmatch q' (by simp))).elim

/-- Every instruction's own row matches its word: the model's laws, one for each instruction, taken together. -/
theorem encoding_statement (i : Instr) : Encoding.Statement i := by
  cases i
  case cls => exact Encoding.cls
  case ret => exact Encoding.ret
  case jpAddr => exact Encoding.jpAddr ..
  case callAddr => exact Encoding.callAddr ..
  case seVxKk => exact Encoding.seVxKk ..
  case sneVxKk => exact Encoding.sneVxKk ..
  case seVxVy => exact Encoding.seVxVy ..
  case ldVxKk => exact Encoding.ldVxKk ..
  case addVxKk => exact Encoding.addVxKk ..
  case ldVxVy => exact Encoding.ldVxVy ..
  case orVxVy => exact Encoding.orVxVy ..
  case andVxVy => exact Encoding.andVxVy ..
  case xorVxVy => exact Encoding.xorVxVy ..
  case addVxVy => exact Encoding.addVxVy ..
  case subVxVy => exact Encoding.subVxVy ..
  case shrVx => exact Encoding.shrVx ..
  case subnVxVy => exact Encoding.subnVxVy ..
  case shlVx => exact Encoding.shlVx ..
  case sneVxVy => exact Encoding.sneVxVy ..
  case ldIAddr => exact Encoding.ldIAddr ..
  case jpV0Addr => exact Encoding.jpV0Addr ..
  case rndVxKk => exact Encoding.rndVxKk ..
  case drwVxVyN => exact Encoding.drwVxVyN ..
  case skpVx => exact Encoding.skpVx ..
  case sknpVx => exact Encoding.sknpVx ..
  case ldVxDt => exact Encoding.ldVxDt ..
  case ldVxK => exact Encoding.ldVxK ..
  case ldDtVx => exact Encoding.ldDtVx ..
  case ldStVx => exact Encoding.ldStVx ..
  case addIVx => exact Encoding.addIVx ..
  case ldFVx => exact Encoding.ldFVx ..
  case ldBVx => exact Encoding.ldBVx ..
  case ldMemVx => exact Encoding.ldMemVx ..
  case ldVxMem => exact Encoding.ldVxMem ..

/-- The table has a row with the instruction's mnemonic that matches the instruction's word. -/
theorem exists_row_of_encode (i : Instr) :
    ∃ r ∈ opcodeRows, r.mnemonic = i.mnemonic ∧ r.matchesWord (encode i) = true := by
  obtain ⟨r, hfind, hmatch⟩ := encoding_statement i
  exact ⟨r, List.mem_of_find?_eq_some hfind, by simpa using List.find?_some hfind, hmatch⟩

/-! ## A word that some row matches is not unknown -/

@[simp] theorem fieldOp_and (v w : Word) : fieldOp (v &&& w) = fieldOp v &&& fieldOp w := BitVec.extractLsb'_and
@[simp] theorem fieldN_and (v w : Word) : fieldN (v &&& w) = fieldN v &&& fieldN w := BitVec.extractLsb'_and
@[simp] theorem fieldKk_and (v w : Word) : fieldKk (v &&& w) = fieldKk v &&& fieldKk w := BitVec.extractLsb'_and

/-- Each row fixes the whole of every field that its family dispatches on (30_encoding.md R94). -/
theorem mask_covers_dispatch : ∀ r ∈ opcodeRows,
    fieldOp r.mask = BitVec.allOnes 4 ∧
    (fieldOp r.pattern = 0x0 → r.mask = BitVec.allOnes 16) ∧
    (fieldOp r.pattern ∈ [0x5, 0x8, 0x9] → fieldN r.mask = BitVec.allOnes 4) ∧
    (fieldOp r.pattern ∈ [0xE, 0xF] → fieldKk r.mask = BitVec.allOnes 8) := by decide

theorem pattern_not_unknown : ∀ r ∈ opcodeRows, ¬IsUnknownOpcode r.pattern := by decide

/-- A row that matches `w` agrees with it on the fields dispatched on, so `w` is unknown only if the row's pattern is. -/
theorem not_unknown_of_matchesWord {r : OpcodeRow} {w : Word} (hr : r ∈ opcodeRows) (hw : r.matchesWord w = true) :
    ¬IsUnknownOpcode w := by
  obtain ⟨mop, mall, mn, mkk⟩ := mask_covers_dispatch r hr
  have hp : r.pattern = w &&& r.mask := (OpcodeRow.matchesWord_iff.mp hw).symm
  have hop : fieldOp r.pattern = fieldOp w := by rw [hp, fieldOp_and, mop, BitVec.and_allOnes]
  have hn (h : fieldOp w ∈ [0x5, 0x8, 0x9]) : fieldN r.pattern = fieldN w := by
    rw [hp, fieldN_and, mn (hop ▸ h), BitVec.and_allOnes]
  have hkk (h : fieldOp w ∈ [0xE, 0xF]) : fieldKk r.pattern = fieldKk w := by
    rw [hp, fieldKk_and, mkk (hop ▸ h), BitVec.and_allOnes]
  have hall (h : fieldOp w = 0x0) : r.pattern = w := by
    rw [hp, mall (hop.trans h), BitVec.and_allOnes]
  intro hu
  apply pattern_not_unknown r hr
  rcases hu with ⟨h, hrest⟩ | ⟨h, hrest⟩ | ⟨h, hrest⟩ | ⟨h, hrest⟩ | ⟨h, hrest⟩ | ⟨h, hrest⟩
  · rw [hall h]
    exact .inl ⟨h, hrest⟩
  · rw [IsUnknownOpcode, hop, hn (by simp [h])]
    exact .inr (.inl ⟨h, hrest⟩)
  · rw [IsUnknownOpcode, hop, hn (by simp [h])]
    exact .inr (.inr (.inl ⟨h, hrest⟩))
  · rw [IsUnknownOpcode, hop, hn (by simp [h])]
    exact .inr (.inr (.inr (.inl ⟨h, hrest⟩)))
  · rw [IsUnknownOpcode, hop, hkk (by simp [h])]
    exact .inr (.inr (.inr (.inr (.inl ⟨h, hrest⟩))))
  · rw [IsUnknownOpcode, hop, hkk (by simp [h])]
    exact .inr (.inr (.inr (.inr (.inr ⟨h, hrest⟩))))

theorem encode_not_unknown (i : Instr) : ¬IsUnknownOpcode (encode i) := by
  obtain ⟨r, hr, -, hmatch⟩ := exists_row_of_encode i
  exact not_unknown_of_matchesWord hr hmatch

/-! ## The statements -/

/-- Settles O2: the dispatched fields of each format are the ones the encoder put there, and so are the operands; a sprite's
height below 16 fits its nibble. -/
theorem encodedInstructionDecodesBack : Obligations.EncodedInstructionDecodesBack := by
  intro i hi
  cases i
  case cls | ret => rfl
  case drwVxVyN x y n => simp [encode, decode, Nat.mod_eq_of_lt (drw_height_lt hi)]
  case seVxVy | sneVxVy => simp [encode, decode, requireN0]
  case ldVxVy | orVxVy | andVxVy | xorVxVy | addVxVy | subVxVy | shrVx | subnVxVy | shlVx =>
    simp [encode, decode, decodeFamily8]
  case skpVx | sknpVx => simp [encode, decode, decodeFamilyE]
  case ldVxDt | ldVxK | ldDtVx | ldStVx | addIVx | ldFVx | ldBVx | ldMemVx | ldVxMem =>
    simp [encode, decode, decodeFamilyF]
  case jpAddr | callAddr | ldIAddr | jpV0Addr | seVxKk | sneVxKk | ldVxKk | addVxKk | rndVxKk => simp [encode, decode]

/-- Settles O3: the decoder's answer is right for every word. -/
theorem decodedWordEncodesBack : Obligations.DecodedWordEncodesBack :=
  fun _ _ => wellFormed_encode_of_decode

/-- Settles O4: a decoded word is its instruction's, whose row matches and excludes the others; an unknown word matches no
row. -/
theorem dispatchAgreesWithOpcodeTable : Obligations.DispatchAgreesWithOpcodeTable := by
  intro w
  cases h : decode w with
  | ok i =>
    obtain ⟨-, rfl⟩ := wellFormed_encode_of_decode h
    obtain ⟨r, hr, hname, hmatch⟩ := exists_row_of_encode i
    exact ⟨r, filter_matchesWord_eq_singleton hr hmatch, hname⟩
  | error e =>
    obtain ⟨he, hu⟩ := unknown_of_decode_error h
    refine ⟨List.filter_eq_nil_iff.mpr fun r hr hmatch => ?_, he⟩
    exact not_unknown_of_matchesWord hr hmatch hu

/-- Settles O5: an error names an unknown word, and an unknown word is no instruction's. -/
theorem unknownOpcodeSpaceByFamily : Obligations.UnknownOpcodeSpaceByFamily := by
  intro w
  refine ⟨fun h => (unknown_of_decode_error h).2, fun hu => ?_⟩
  cases h : decode w with
  | ok i =>
    obtain ⟨-, rfl⟩ := wellFormed_encode_of_decode h
    exact absurd hu (encode_not_unknown i)
  | error e => rw [(unknown_of_decode_error h).1]

/-- Settles O1: the sample words, run through the decoder. -/
theorem sampleWordsDecode : Obligations.SampleWordsDecode := by
  unfold Obligations.SampleWordsDecode
  decide

end Sys2Proof
end

section
/-! PROOFS. The cycle engine (40_cycle_engine.md): where a step goes, what the end of a step leaves of the inputs and of the
devices, that every host operation keeps the invariant, and the five statements of this family. -/

namespace Sys2Proof.Machine

/-! ## What an operation can do, said once -/

/-- A step that answers a next state is a running engine's: a fetch fault, a decoded instruction or an unknown word
(40_cycle_engine.md R122 to R124, R128). -/
theorem step_next_cases {s t : State} (h : step s = .next t) :
    s.halted = false ∧
      ((0xFFE < s.pc.toNat ∧ t = s.takeFetchFault) ∨
       (∃ i, s.pc.toNat ≤ 0xFFE ∧ decode s.fetchWord = .ok i ∧ exec i s = .next t) ∨
       (∃ e, s.pc.toNat ≤ 0xFFE ∧ decode s.fetchWord = .error e ∧ t = s.unknownOpcode s.fetchWord)) := by
  cases hrun : s.halted with
  | true => simp [step_halted hrun] at h
  | false =>
    refine ⟨rfl, ?_⟩
    rcases Nat.lt_or_ge 0xFFE s.pc.toNat with hp | hp
    · rw [step_fetch_fault hrun hp] at h
      exact .inl ⟨hp, (Host.Outcome.next.inj h).symm⟩
    · cases hd : decode s.fetchWord with
      | ok i => exact .inr (.inl ⟨i, hp, rfl, step_decoded hrun hp hd ▸ h⟩)
      | error e =>
        rw [step_unknown hrun hp hd] at h
        exact .inr (.inr ⟨e, hp, rfl, (Host.Outcome.next.inj h).symm⟩)

/-- Ticks write the timers and the report alone (60_exceptions.md R293 to R295). -/
theorem decayTimers_writes (k : Nat) (s : State) :
    ∃ dt st events, s.decayTimers k = { s with dt := dt, st := st, events := events } := by
  induction k generalizing s with
  | zero => exact ⟨_, _, _, rfl⟩
  | succ k ih =>
    obtain ⟨dt, st, events, h⟩ := ih s.tick
    refine ⟨dt, st, s.tick.events ++ events, ?_⟩
    simp only [State.decayTimers, h]
    unfold State.tick
    split <;> rfl

/-- An operation of the host either runs one step, or writes the timers, the keypad, draw_flag and the report alone
(40_cycle_engine.md R120, R122). -/
theorem perform_cases (s : State) (op : HostOp) :
    step s = .next (op.perform s) ∨
    ∃ dt st keypad drawFlag events, op.perform s =
      { s with dt := dt, st := st, keypad := keypad, drawFlag := drawFlag, events := events } := by
  cases op with
  | step =>
    cases h : step s with
    | next t => exact .inl (by simp [HostOp.perform, h])
    | fault r => exact .inr ⟨_, _, _, _, _, by simp only [HostOp.perform, h]; rfl⟩
    | refused r => exact .inr ⟨s.dt, s.st, s.keypad, s.drawFlag, s.events, by simp only [HostOp.perform, h]⟩
  | decayTimers k =>
    obtain ⟨dt, st, events, h⟩ := decayTimers_writes k s
    exact .inr ⟨dt, st, s.keypad, s.drawFlag, events, h⟩
  | keyWrite | drawAck | readDisplay | dump => exact .inr ⟨_, _, _, _, _, rfl⟩

/-! ## The inputs and the configuration over a step -/

/-- The keypad, the configuration and the parameters are the same in both states (00_scope.md R9, R10; 10_state.md R31). -/
structure SameInputs (s t : State) : Prop where
  keypad : t.keypad = s.keypad
  legacyMode : t.legacyMode = s.legacyMode
  font : t.font = s.font
  vfWriteOrder : t.vfWriteOrder = s.vfWriteOrder

/-- The end of a step keeps the inputs that the handler keeps. -/
theorem retire_sameInputs {w : Word} {s : State} {h : HandlerResult} (hok : h.Ok s) : SameInputs s (retire w s h) := by
  rcases retire_cases w s h with ⟨code, extra, hr⟩ | ⟨t, o, rfl, -, hr⟩ <;> rw [hr]
  · exact ⟨rfl, rfl, rfl, rfl⟩
  · exact ⟨hok.keypad, hok.legacyMode, hok.font, hok.vfWriteOrder⟩

/-- No instruction writes the inputs (40_cycle_engine.md R130). -/
theorem exec_sameInputs {i : Instr} {s t : State} (he : exec i s = .next t) : SameInputs s t := by
  obtain ⟨h, hok, hr⟩ := exec_retires i s
  obtain rfl := Host.Outcome.next.inj (hr.symm.trans he)
  exact retire_sameInputs hok

/-- An unknown word writes none either. -/
theorem unknownOpcode_sameInputs (s : State) (w : Word) : SameInputs s (s.unknownOpcode w) := by
  obtain ⟨hkeypad, hlegacy, hfont, horder⟩ := retire_sameInputs (w := w) (h := .writes s .auto) (Untouched.refl s)
  exact ⟨hkeypad, hlegacy, hfont, horder⟩

theorem step_sameInputs {s t : State} (h : step s = .next t) : SameInputs s t := by
  obtain ⟨-, ⟨-, rfl⟩ | ⟨i, -, -, he⟩ | ⟨e, -, -, rfl⟩⟩ := step_next_cases h
  · exact ⟨rfl, rfl, rfl, rfl⟩
  · exact exec_sameInputs he
  · exact unknownOpcode_sameInputs s _

/-! ## What a handler commits -/

/-- The writes of a handler's result have the property `P`; a fault has none. -/
def HandlerResult.Commits (P : State → Prop) : HandlerResult → Prop
  | .raises _ _ => True
  | .writes t _ => P t

/-- A property that neither pc, nor the fault's fields, nor the report enters holds at the end of a step when it holds
before the step and of the handler's writes. -/
theorem retire_of_commits {P : State → Prop} {w : Word} {s : State} {h : HandlerResult}
    (hfault : ∀ r, P (s.takeFault r)) (hcommit : ∀ t pc, P t → P { t with pc := pc, events := [] }) (hP : h.Commits P) :
    P (retire w s h) := by
  rcases retire_cases w s h with ⟨code, extra, hr⟩ | ⟨t, o, rfl, -, hr⟩ <;> rw [hr]
  · exact hfault _
  · exact hcommit t _ hP

/-! ## Memory and the live return addresses -/

/-- The part of the invariant that a handler's writes can touch: canonical memory for the font `f`, and every live return
address in range (41_control_flow.md R151, R153; log 16). -/
structure StoresSound (f : Font) (s : State) : Prop where
  memoryWf : s.memory.wf f
  liveReturns : ∀ k, (h : k < s.sp.val) → 2 ≤ (s.stack[k]'(by omega)).toNat ∧ (s.stack[k]'(by omega)).toNat ≤ 0x1000

theorem State.Inv.storesSound {s : State} (hs : s.Inv) : StoresSound s.font s := ⟨hs.memoryWf, hs.liveReturns⟩

/-- Writes that leave memory and the stack, and do not raise sp, keep both. -/
theorem StoresSound.of_eq {f : Font} {s t : State} (hs : StoresSound f s) (hmem : t.memory = s.memory)
    (hstack : t.stack = s.stack) (hsp : t.sp.val ≤ s.sp.val) : StoresSound f t := by
  refine ⟨hmem ▸ hs.memoryWf, fun k hk => ?_⟩
  simp only [hstack]
  exact hs.liveReturns k (by omega)

/-- Storing inside the 4096 bytes keeps both. -/
theorem StoresSound.writeBytes {s : State} {a : Nat} {bs : List Byte} (hs : StoresSound s.font s)
    (hin : firstOutOfRange a bs.length = none) : StoresSound s.font (s.writeBytes a bs) := by
  refine ⟨?_, hs.liveReturns⟩
  rcases (firstOutOfRange_none_iff a bs.length).mp hin with hnil | hle
  · obtain rfl := List.length_eq_zero_iff.mp hnil
    exact hs.memoryWf
  · exact writeBytes_wf bs hs.memoryWf hle

/-- Pushing an address of the range keeps both (41_control_flow.md R153). -/
theorem StoresSound.push {f : Font} {s : State} {a : Word} (hs : StoresSound f s) (hsp : s.sp.val < 16)
    (ha : 2 ≤ a.toNat ∧ a.toNat ≤ 0x1000) :
    StoresSound f { s with stack := s.stack.set s.sp.val a, sp := ⟨s.sp.val + 1, by omega⟩ } := by
  refine ⟨hs.memoryWf, fun k hk => ?_⟩
  simp only [Vector.getElem_set]
  split
  · exact ha
  · exact hs.liveReturns k (by have : k < s.sp.val + 1 := hk; omega)

/-- The address after a fetched instruction is one of the range. -/
theorem returnAddress_inRange {pc : Word} (hp : pc.toNat ≤ 0xFFE) :
    2 ≤ (pc + 2).toNat ∧ (pc + 2).toNat ≤ 0x1000 := by
  have h : (pc + 2).toNat = pc.toNat + 2 := by bv_omega
  omega

/-- Every handler's writes keep memory canonical and the live return addresses in range: CALL pushes pc + 2, RET pops, LD B
and LD [I] store after their range check, and no other instruction reaches either. -/
theorem exec_commits_storesSound (i : Instr) {s : State} (hs : StoresSound s.font s) (hp : s.pc.toNat ≤ 0xFFE) :
    ∃ h : HandlerResult, h.Commits (StoresSound s.font) ∧ exec i s = .next (retire (encode i) s h) := by
  cases i <;> refine ⟨_, ?_, rfl⟩
  case callAddr nnn =>
    split
    · exact hs.push ‹_› (returnAddress_inRange hp)
    · trivial
  case ret =>
    split
    · trivial
    · exact hs.of_eq rfl rfl (Nat.sub_le _ _)
  case ldBVx x =>
    split
    · trivial
    · exact hs.writeBytes ‹_›
  case ldMemVx x =>
    split
    · trivial
    · obtain ⟨hmem, hlive⟩ := hs.writeBytes (bs := s.registersUpTo x) (by rwa [registersUpTo_length])
      exact ⟨hmem, hlive⟩
  case addVxVy | subVxVy | shrVx | subnVxVy | shlVx =>
    exact hs.of_eq (writeRF_memory ..) (writeRF_stack ..) (by rw [writeRF_sp])
  case drwVxVyN | ldVxMem =>
    split
    · trivial
    · exact hs.of_eq rfl rfl le_rfl
  case skpVx | sknpVx =>
    split
    · exact hs
    · trivial
  case ldVxK => split <;> exact hs.of_eq rfl rfl le_rfl
  all_goals exact hs.of_eq rfl rfl le_rfl

theorem retire_storesSound {w : Word} {s : State} {h : HandlerResult} (hs : StoresSound s.font s)
    (hc : h.Commits (StoresSound s.font)) : StoresSound s.font (retire w s h) :=
  retire_of_commits (fun _ => ⟨hs.memoryWf, hs.liveReturns⟩) (fun _ _ ht => ⟨ht.memoryWf, ht.liveReturns⟩) hc

theorem exec_storesSound {i : Instr} {s t : State} (hs : StoresSound s.font s) (hp : s.pc.toNat ≤ 0xFFE)
    (he : exec i s = .next t) : StoresSound s.font t := by
  obtain ⟨h, hc, hr⟩ := exec_commits_storesSound i hs hp
  obtain rfl := Host.Outcome.next.inj (hr.symm.trans he)
  exact retire_storesSound hs hc

/-! ## The invariant over a step -/

/-- Fault entry at the machine's own pc keeps the invariant (60_exceptions.md R282). -/
theorem State.Inv.takeFault {s : State} (hs : s.Inv) {r : FaultRecord} (hr : r.pc = s.pc) : (s.takeFault r).Inv where
  pcInRange := hs.pcInRange
  memoryWf := hs.memoryWf
  liveReturns := hs.liveReturns
  haltedIffFault := rfl
  faultAtPc := by rintro _ ⟨⟩; exact hr

/-- The invariant reads neither the timers, nor the keypad, nor draw_flag, nor the report. -/
theorem State.Inv.withDevices {s : State} (hs : s.Inv) (dt st : Byte) (keypad : Vector Bool 16) (drawFlag : Bool)
    (events : List Event) :
    { s with dt := dt, st := st, keypad := keypad, drawFlag := drawFlag, events := events }.Inv :=
  ⟨hs.pcInRange, hs.memoryWf, hs.liveReturns, hs.haltedIffFault, hs.faultAtPc⟩

/-- A running engine has no fault recorded. -/
theorem State.Inv.fault_eq_none {s : State} (hs : s.Inv) (hrun : s.halted = false) : s.fault = none :=
  Option.isSome_eq_false_iff.mp (hs.haltedIffFault ▸ hrun) |> Option.isNone_iff_eq_none.mp

/-- The end of a running engine's step keeps the invariant: a fault is taken at pc, and a commit's new pc lies in memory and
leaves the engine running. -/
theorem retire_inv {w : Word} {s : State} {h : HandlerResult} (hs : s.Inv) (hrun : s.halted = false) (hok : h.Ok s)
    (hsound : StoresSound s.font (retire w s h)) : (retire w s h).Inv := by
  rcases retire_cases w s h with ⟨code, extra, hr⟩ | ⟨t, o, rfl, hn, hr⟩
  · rw [hr]; exact hs.takeFault rfl
  · have hnofault : t.fault = none := hok.fault.trans (hs.fault_eq_none hrun)
    rw [hr] at hsound ⊢
    exact {
      pcInRange := by rw [BitVec.toNat_ofNat]; exact (Nat.mod_le _ _).trans_lt hn
      memoryWf := hok.font ▸ hsound.memoryWf
      liveReturns := hsound.liveReturns
      haltedIffFault := by simp [hok.halted, hrun, hnofault]
      faultAtPc := by simp [hnofault] }

theorem exec_inv {i : Instr} {s t : State} (hs : s.Inv) (hrun : s.halted = false) (hp : s.pc.toNat ≤ 0xFFE)
    (he : exec i s = .next t) : t.Inv := by
  obtain ⟨h, hok, hr⟩ := exec_retires i s
  obtain rfl := Host.Outcome.next.inj (hr.symm.trans he)
  exact retire_inv hs hrun hok (exec_storesSound hs.storesSound hp he)

theorem unknownOpcode_inv {s : State} (w : Word) (hs : s.Inv) (hrun : s.halted = false) : (s.unknownOpcode w).Inv :=
  (retire_inv hs hrun (h := .writes s .auto) (Untouched.refl s)
    (retire_storesSound hs.storesSound hs.storesSound)).withDevices ..

/-- Every step keeps the invariant. -/
theorem step_inv {s t : State} (hs : s.Inv) (h : step s = .next t) : t.Inv := by
  obtain ⟨hrun, ⟨-, rfl⟩ | ⟨i, hp, -, he⟩ | ⟨e, -, -, rfl⟩⟩ := step_next_cases h
  · exact hs.takeFault rfl
  · exact exec_inv hs hrun hp he
  · exact unknownOpcode_inv _ hs hrun

/-! ## The timers and the display over an instruction -/

/-- What an instruction leaves of the timers and the display (10_state.md R30, R32, R33). -/
structure DeviceFrame (i : Instr) (s t : State) : Prop where
  dt : t.dt = s.dt ∨ ∃ x, i = .ldDtVx x
  st : t.st = s.st ∨ ∃ x, i = .ldStVx x
  screen : (t.display = s.display ∧ t.drawFlag = s.drawFlag) ∨
    ((i = .cls ∨ ∃ x y n, i = .drwVxVyN x y n) ∧ t.drawFlag = true)

/-- Writes that leave all four fields are within every instruction's frame. -/
theorem DeviceFrame.of_eq {i : Instr} {s t : State} (hdt : t.dt = s.dt) (hst : t.st = s.st)
    (hdisplay : t.display = s.display) (hflag : t.drawFlag = s.drawFlag) : DeviceFrame i s t :=
  ⟨.inl hdt, .inl hst, .inl ⟨hdisplay, hflag⟩⟩

/-- Every handler's writes are within its instruction's frame: CLS and DRW reach the screen, Fx15 dt, Fx18 st. -/
theorem exec_commits_deviceFrame (i : Instr) (s : State) :
    ∃ h : HandlerResult, h.Commits (DeviceFrame i s) ∧ exec i s = .next (retire (encode i) s h) := by
  cases i <;> refine ⟨_, ?_, rfl⟩
  case cls => exact ⟨.inl rfl, .inl rfl, .inr ⟨.inl rfl, rfl⟩⟩
  case ldDtVx x => exact ⟨.inr ⟨x, rfl⟩, .inl rfl, .inl ⟨rfl, rfl⟩⟩
  case ldStVx x => exact ⟨.inl rfl, .inr ⟨x, rfl⟩, .inl ⟨rfl, rfl⟩⟩
  case drwVxVyN x y n =>
    split
    · trivial
    · exact ⟨.inl rfl, .inl rfl, .inr ⟨.inr ⟨x, y, n, rfl⟩, rfl⟩⟩
  case addVxVy | subVxVy | shrVx | subnVxVy | shlVx =>
    exact .of_eq (writeRF_dt ..) (writeRF_st ..) (writeRF_display ..) (writeRF_drawFlag ..)
  case ret | ldBVx | ldMemVx | ldVxMem =>
    split
    · trivial
    · exact .of_eq rfl rfl rfl rfl
  case callAddr | skpVx | sknpVx =>
    split
    · exact .of_eq rfl rfl rfl rfl
    · trivial
  case ldVxK => split <;> exact .of_eq rfl rfl rfl rfl
  all_goals exact .of_eq rfl rfl rfl rfl

theorem exec_deviceFrame {i : Instr} {s t : State} (he : exec i s = .next t) : DeviceFrame i s t := by
  obtain ⟨h, hc, hr⟩ := exec_commits_deviceFrame i s
  obtain rfl := Host.Outcome.next.inj (hr.symm.trans he)
  exact retire_of_commits (fun _ => .of_eq rfl rfl rfl rfl) (fun _ _ ht => ⟨ht.dt, ht.st, ht.screen⟩) hc

/-! ## The oracle -/

/-- The state with another count of draws (log 3). -/
def State.withDraws (s : State) (k : Nat) : State := { s with draws := k }

/-- `h'` is what `h` becomes at the count `k`: the same fault, or the same writes, which leave the count of `s`. -/
inductive SameButDraws (k : Nat) (s : State) : HandlerResult → HandlerResult → Prop where
  | raises (code : FaultCode) (extra : Option Nat) : SameButDraws k s (.raises code extra) (.raises code extra)
  | writes {t : State} {o : PcOutcome} (ht : t.draws = s.draws) :
      SameButDraws k s (.writes t o) (.writes (t.withDraws k) o)

@[simp] theorem dataBase_withDraws (s : State) (k : Nat) : (s.withDraws k).dataBase = s.dataBase := rfl
@[simp] theorem lowestKey_withDraws (s : State) (k : Nat) : (s.withDraws k).lowestKey = s.lowestKey := rfl

/-- No byte read depends on the count of draws. -/
@[simp] theorem readBytes_withDraws (s : State) (k a n : Nat) : (s.withDraws k).readBytes a n = s.readBytes a n := by
  induction n generalizing a with
  | zero => rfl
  | succ n ih => simp only [State.readBytes, ih]; rfl

/-- Nor does the order in which a result and its flag are written. -/
theorem writeRF_withDraws (s : State) (k : Nat) (o : ListedOrder) (x : Reg) (r f : Byte) :
    (s.withDraws k).writeRF o x r f = (s.writeRF o x r f).withDraws k := by
  unfold State.writeRF State.withDraws
  split <;> rfl

/-- Nor does the end of a step, and it leaves that count. -/
theorem SameButDraws.retire {w : Word} {k : Nat} {s : State} {h h' : HandlerResult} (hh : SameButDraws k s h h') :
    retire w (s.withDraws k) h' = (retire w s h).withDraws k ∧ (retire w s h).draws = s.draws := by
  cases hh with
  | raises code extra => exact ⟨rfl, rfl⟩
  | @writes t o ht =>
    rcases Nat.lt_or_ge (pcNext s.pc o) 0x1000 with hn | hn
    · rw [retire_writes hn, retire_writes (s := s.withDraws k) hn]
      exact ⟨rfl, ht⟩
    · rw [retire_outOfRange hn, retire_outOfRange (s := s.withDraws k) hn]
      exact ⟨rfl, rfl⟩

section
variable {k : Nat} {s : State}

/-- Handlers that branch on one condition agree when their branches do. -/
theorem SameButDraws.ite {c : Prop} [Decidable c] {h₁ h₁' h₂ h₂' : HandlerResult} (h₁s : SameButDraws k s h₁ h₁')
    (h₂s : SameButDraws k s h₂ h₂') : SameButDraws k s (if c then h₁ else h₂) (if c then h₁' else h₂') := by
  split
  · exact h₁s
  · exact h₂s

theorem SameButDraws.dite {c : Prop} [Decidable c] {h₁ h₁' : c → HandlerResult} {h₂ h₂' : ¬c → HandlerResult}
    (h₁s : ∀ hc, SameButDraws k s (h₁ hc) (h₁' hc)) (h₂s : ∀ hc, SameButDraws k s (h₂ hc) (h₂' hc)) :
    SameButDraws k s (if hc : c then h₁ hc else h₂ hc) (if hc : c then h₁' hc else h₂' hc) := by
  split
  · exact h₁s _
  · exact h₂s _

end

/-- The handler of every instruction but RND leaves the count of draws, and answers the same from another count
(40_cycle_engine.md R131). -/
theorem exec_withDraws_retires {i : Instr} (hi : ∀ x kk, i ≠ .rndVxKk x kk) (s : State) (k : Nat) :
    ∃ h h', SameButDraws k s h h' ∧ exec i s = .next (retire (encode i) s h) ∧
      exec i (s.withDraws k) = .next (retire (encode i) (s.withDraws k) h') := by
  cases i <;> refine ⟨_, _, ?_, rfl, rfl⟩
  case rndVxKk x kk => exact absurd rfl (hi x kk)
  case addVxVy | subVxVy | shrVx | subnVxVy | shlVx =>
    rw [writeRF_withDraws]
    exact .writes (writeRF_draws ..)
  case ret => exact .ite (.raises _ _) (.writes rfl)
  case callAddr | skpVx | sknpVx => exact .dite (fun _ => .writes rfl) (fun _ => .raises _ _)
  case drwVxVyN | ldVxMem =>
    rw [readBytes_withDraws, dataBase_withDraws]
    split
    · exact .raises _ _
    · exact .writes rfl
  case ldBVx | ldMemVx =>
    rw [dataBase_withDraws]
    split
    · exact .raises _ _
    · exact .writes rfl
  case ldVxK =>
    rw [lowestKey_withDraws]
    split <;> exact .writes rfl
  all_goals exact .writes rfl

/-! ## The statements -/

/-- Settles O58: an operation runs one step, which keeps the invariant and the inputs, or writes nothing that either
speaks of. -/
theorem everyHostOperationKeepsInvariant : Obligations.EveryHostOperationKeepsInvariant := by
  intro s op hs
  rcases perform_cases s op with h | ⟨dt, st, keypad, drawFlag, events, h⟩
  · obtain ⟨-, hlegacy, hfont, horder⟩ := step_sameInputs h
    exact ⟨step_inv hs h, hlegacy, hfont, horder⟩
  · rw [h]
    exact ⟨hs.withDevices .., rfl, rfl, rfl⟩

/-- Settles O22: the devices by the instruction's frame, the inputs because no step writes them. -/
theorem timersDisplayAndInputsFrame : Obligations.TimersDisplayAndInputsFrame := by
  intro i s t he
  obtain ⟨hdt, hst, hscreen⟩ := exec_deviceFrame he
  obtain ⟨hkeypad, hlegacy, hfont, horder⟩ := exec_sameInputs he
  refine ⟨hdt.resolve_left, hst.resolve_left, fun hne => ?_, fun hset => ?_, hkeypad, hlegacy, hfont, horder⟩
  · rcases hscreen with ⟨hdisplay, hflag⟩ | ⟨hi, -⟩
    · exact absurd hne (by simp [hdisplay, hflag])
    · exact hi
  · rcases hscreen with ⟨-, hflag⟩ | ⟨-, hflag⟩
    · exact hflag.trans hset
    · exact hflag

/-- Settles O23: the handler does the same from another count of draws and leaves the count, and so does the end of the
step. -/
theorem onlyRndReadsTheOracle : Obligations.OnlyRndReadsTheOracle := by
  intro i s t k hi he
  obtain ⟨h, h', hh, hr, hrk⟩ := exec_withDraws_retires hi s k
  obtain rfl := Host.Outcome.next.inj (hr.symm.trans he)
  obtain ⟨hsame, hdraws⟩ := hh.retire (w := encode i)
  exact ⟨hrk.trans (congrArg Host.Outcome.next hsame), hdraws⟩

/-- Settles O6: below the top the fetched word is decoded and run; above it the fetch faults. -/
theorem stepRunsTheDecodedInstruction : Obligations.StepRunsTheDecodedInstruction :=
  fun _ hrun => ⟨fun _ hp hd => step_decoded hrun hp hd, fun hp => step_fetch_fault hrun hp⟩

/-- Settles O7: a halted engine answers its fault before it fetches. -/
theorem stepOnHaltedEngineReturnsRecordedFault : Obligations.StepOnHaltedEngineReturnsRecordedFault :=
  fun _ hhalt => step_halted hhalt

end Sys2Proof.Machine
end

section
/-! PROOFS. Control flow (41_control_flow.md): how an instruction completes from what its handler answers, what CALL and RET
do to the stack, and the eight statements of this family. -/

namespace Sys2Proof.Machine

open Sys2Proof Sys2Proof.Claims

/-! ## From a handler's answer to the completed step (40_cycle_engine.md R125 to R127) -/

section
variable {i : Instr} {s t : State}

/-- Writes with a pc outcome complete at that outcome's pc_next. -/
theorem completesAt_of_writes {o : PcOutcome} (he : exec i s = .next (retire (encode i) s (.writes t o))) :
    CompletesAt i s t (pcNext s.pc o) := by
  refine ⟨fun hin => ?_, fun hout => ?_⟩
  · rw [he, retire_writes hin]
  · rw [he, retire_outOfRange hout]; rfl

/-- A handler's own fault is taken with none of its writes (60_exceptions.md R282). -/
theorem retire_raises_eq_faulted (code : FaultCode) (extra : Option Nat) :
    retire (encode i) s (.raises code extra) = faulted s i code extra := rfl

/-- Skip(c) goes on at pc + 4 exactly when `c`, and at pc + 2 otherwise. -/
theorem skipsWhen_of_autoSkip {c : Prop} [Decidable c]
    (he : exec i s = .next (retire (encode i) s (.writes s (.autoSkip c)))) : SkipsWhen i s c := by
  have hat := completesAt_of_writes he
  refine ⟨fun hc => ?_, fun hc => ?_⟩
  · simpa only [pcNext, hc, decide_true, if_true] using hat
  · simpa only [pcNext, hc, decide_false, Bool.false_eq_true, if_false] using hat

end

/-- A jump to a 12-bit address commits its writes: the address lies inside memory (41_control_flow.md R152). -/
theorem retire_jump (w : Word) (s t : State) (nnn : Addr12) :
    retire w s (.writes t (.selfSet (zext16 nnn).toNat)) = { t with pc := BitVec.ofNat 16 nnn.toNat, events := [] } := by
  rw [zext16_toNat]
  exact retire_writes (o := .selfSet nnn.toNat) nnn.isLt

/-! ## The stack (41_control_flow.md R151, R153) -/

section
variable {s : State}

/-- With live entries, RET's handler answers the top one as the new pc and takes sp below it; the entry stays. -/
theorem exec_ret_pops {k : Nat} (hk : k < 16) (hsp : s.sp.val = k + 1) :
    exec .ret s = .next (retire (encode .ret) s
      (.writes { s with sp := ⟨k, Nat.lt_succ_of_lt hk⟩ } (.selfSet (s.stack[k]).toNat))) := by
  simp only [exec, execRet, complete, hsp, Nat.add_one_ne_zero, if_false, Nat.add_sub_cancel]

/-- With a free slot, CALL pushes the address after it and jumps; nnn lies inside memory, so no fault can follow. -/
theorem exec_callAddr_pushes {nnn : Addr12} (hsp : s.sp.val < 16) :
    exec (.callAddr nnn) s = .next { s with
      stack := s.stack.set s.sp.val (s.pc + 2)
      sp := ⟨s.sp.val + 1, Nat.succ_lt_succ hsp⟩
      pc := BitVec.ofNat 16 nnn.toNat
      events := [] } := by
  simp only [exec, execCallAddr, complete, hsp, dite_true, retire_jump]

end

/-! ## The statements -/

/-- Settles O14: the invariant over a fetch fault, a decoded instruction and an unknown word. -/
theorem stepKeepsInvariant : Obligations.StepKeepsInvariant :=
  fun _ _ => step_inv

/-- Settles O24: CLS writes the blank display and draw_flag, with the plain advance. -/
theorem clsClearsDisplay : Obligations.ClsClearsDisplay :=
  ⟨encodedInstructionDecodesBack .cls rfl,
    fun _ => ⟨Display.blank, cell_blank, completesAt_of_writes (o := .auto) rfl⟩⟩

/-- Settles O25: an empty stack raises StackUnderflow, and a live one pops. -/
theorem retPopsReturnAddress : Obligations.RetPopsReturnAddress := by
  refine ⟨encodedInstructionDecodesBack .ret rfl, fun s hsp => ?_, fun s k hk hsp => ?_⟩
  · simp only [exec, execRet, complete, hsp, if_true, retire_raises_eq_faulted]
  · exact completesAt_of_writes (exec_ret_pops hk hsp)

/-- Settles O26: JP's address is always inside memory, so its writes, which are none, are committed. -/
theorem jumpSetsPc : Obligations.JumpSetsPc := fun nnn s =>
  ⟨encodedInstructionDecodesBack (.jpAddr nnn) rfl, congrArg Host.Outcome.next (retire_jump _ s s nnn)⟩

/-- Settles O27: a free slot takes the return address, and with none left CALL raises StackOverflow. -/
theorem callPushesReturnAddress : Obligations.CallPushesReturnAddress := by
  refine fun nnn s => ⟨encodedInstructionDecodesBack (.callAddr nnn) rfl, ?_, fun hsp => ?_⟩
  · rintro _ hk rfl
    rw [ofNat_pc_add]
    exact exec_callAddr_pushes hk
  · simp only [exec, execCallAddr, complete, hsp, Nat.lt_irrefl, dite_false, retire_raises_eq_faulted]

/-- Settles O28: the entry RET pops is the one CALL pushed, pc + 2, which lies inside memory; CALL raised sp by one and wrote
no entry below it. -/
theorem callThenRetReturnsAfterTheCall : Obligations.CallThenRetReturnsAfterTheCall := by
  intro nnn s hsp hpc
  have hin : (s.pc + 2).toNat < 0x1000 := by bv_omega
  have hpop : (s.stack.set s.sp.val (s.pc + 2))[s.sp.val] = s.pc + 2 := Vector.getElem_set_self ..
  refine ⟨_, _, exec_callAddr_pushes hsp,
    (completesAt_of_writes (exec_ret_pops hsp rfl)).1 ?_, ?_, rfl, fun k hk => ?_, rfl, rfl, rfl⟩
  · simpa only [pcNext, hpop] using hin
  · simp only [pcNext, hpop, BitVec.ofNat_toNat, BitVec.setWidth_eq]
  · exact Vector.getElem_set_ne hsp k.isLt (by omega)

/-- Settles O29: both handlers answer Skip of their comparison. -/
theorem skipComparesRegisterWithByte : Obligations.SkipComparesRegisterWithByte := fun x kk _ =>
  ⟨⟨encodedInstructionDecodesBack (.seVxKk x kk) rfl, skipsWhen_of_autoSkip rfl⟩,
    encodedInstructionDecodesBack (.sneVxKk x kk) rfl, skipsWhen_of_autoSkip rfl⟩

/-- Settles O30: the same for two registers; a word of either family with n ≠ 0 is in the unknown space. -/
theorem skipComparesTwoRegisters : Obligations.SkipComparesTwoRegisters := by
  refine fun x y s => ⟨⟨encodedInstructionDecodesBack (.seVxVy x y) rfl, skipsWhen_of_autoSkip rfl⟩,
    ⟨encodedInstructionDecodesBack (.sneVxVy x y) rfl, skipsWhen_of_autoSkip rfl⟩, fun n hn => ⟨?_, ?_⟩⟩
  · have hop : fieldOp (formatRegReg 0x5 x y n) = 0x5 := fieldOp_formatRegReg ..
    have hfield : fieldN (formatRegReg 0x5 x y n) ≠ 0x0 := by rwa [fieldN_formatRegReg]
    exact (unknownOpcodeSpaceByFamily _).mpr (.inr (.inl ⟨hop, hfield⟩))
  · have hop : fieldOp (formatRegReg 0x9 x y n) = 0x9 := fieldOp_formatRegReg ..
    have hfield : fieldN (formatRegReg 0x9 x y n) ≠ 0x0 := by rwa [fieldN_formatRegReg]
    exact (unknownOpcodeSpaceByFamily _).mpr (.inr (.inr (.inr (.inl ⟨hop, hfield⟩))))

end Sys2Proof.Machine
end

section
/-! PROOFS. Register loads and arithmetic (42_register_alu.md): the bytes the instructions write as numbers, the write of
a result beside its flag, and the six statements of this family. -/

namespace Sys2Proof.Machine

open Sys2Proof Sys2Proof.Claims

/-! ## The bytes as numbers (42_register_alu.md R178 to R190) -/

section
variable (a b : Byte)

theorem byte_add_eq_ofNat : a + b = BitVec.ofNat 8 ((a.toNat + b.toNat) % 256) :=
  BitVec.eq_of_toNat_eq (by simp)

theorem byte_sub_eq_ofNat : a - b = BitVec.ofNat 8 ((256 + a.toNat - b.toNat) % 256) :=
  BitVec.eq_of_toNat_eq (by rw [BitVec.toNat_sub, BitVec.toNat_ofNat]; omega)

theorem byte_ushiftRight_one_eq_ofNat : a >>> 1 = BitVec.ofNat 8 (a.toNat / 2) :=
  BitVec.eq_of_toNat_eq (by rw [BitVec.toNat_ushiftRight, Nat.shiftRight_one, BitVec.toNat_ofNat]; omega)

theorem byte_shiftLeft_one_eq_ofNat : a <<< 1 = BitVec.ofNat 8 (a.toNat * 2 % 256) :=
  BitVec.eq_of_toNat_eq (by simp [Nat.shiftLeft_eq])

end

/-! ## A result beside its flag (42_register_alu.md R179) -/

/-- A flag is the number 1 or 0. -/
theorem flagByte_eq_ofNat (c : Prop) [Decidable c] : flagByte c = BitVec.ofNat 8 (if c then 1 else 0) := by
  by_cases hc : c <;> simp [flagByte, hc]

/-- `WriteRF` touches V alone. -/
theorem writeRF_eq_with_V (s : State) (o : ListedOrder) (x : Reg) (r f : Byte) :
    s.writeRF o x r f = { s with V := (s.writeRF o x r f).V } := by
  unfold State.writeRF
  split <;> rfl

/-- The two writes leave what R179's table says, under each VF_WRITE_ORDER and in each listed order. -/
theorem writeRF_V_eq_withFlag (s : State) (o : ListedOrder) (x : Reg) (r f : Nat) :
    (s.writeRF o x (BitVec.ofNat 8 r) (BitVec.ofNat 8 f)).V = withFlag s x r f (flagIsLater .listed o) := by
  unfold withFlag
  by_cases hx : x = VF
  · subst hx
    rw [writeRF_VF, if_pos rfl]
    cases s.vfWriteOrder <;> cases o <;> rfl
  · rw [writeRF_V hx, if_neg hx]

/-- An instruction that answers `WriteRF` completes with V as R179's table says. -/
theorem completesAuto_of_writeRF {i : Instr} {s : State} {o : ListedOrder} {x : Reg} {r f : Nat}
    (he : exec i s =
      .next (retire (encode i) s (.writes (s.writeRF o x (BitVec.ofNat 8 r) (BitVec.ofNat 8 f)) .auto))) :
    CompletesAuto i s { s with V := withFlag s x r f (flagIsLater .listed o) } := by
  rw [writeRF_eq_with_V, writeRF_V_eq_withFlag] at he
  exact completesAt_of_writes he

/-! ## Adding a byte twice (42_register_alu.md R181) -/

/-- ADD Vx,kk writes the sum to Vx alone. -/
theorem completesAuto_addVxKk (x : Reg) (kk : Byte) (s : State) :
    CompletesAuto (.addVxKk x kk) s (s.setV x (s.getV x + kk)) :=
  completesAt_of_writes (o := .auto) rfl

/-- The second write to a register replaces the first. -/
@[simp] theorem setV_setV (s : State) (x : Reg) (b c : Byte) : (s.setV x b).setV x c = s.setV x c := by
  simp only [State.setV, Vector.set_set]

/-- Two adds to a register are one of the sum: the second reads what the first wrote, and replaces it. -/
theorem setV_add_setV_add (s : State) (x : Reg) (b c : Byte) :
    (s.setV x (s.getV x + b)).setV x ((s.setV x (s.getV x + b)).getV x + c) = s.setV x (s.getV x + (b + c)) := by
  rw [setV_setV, getV_setV_self, BitVec.add_assoc]

/-! ## The statements -/

/-- Settles O31: the handler writes kk to Vx, with the plain advance. -/
theorem loadByteWritesRegister : Obligations.LoadByteWritesRegister := fun x kk _ =>
  ⟨encodedInstructionDecodesBack (.ldVxKk x kk) rfl, completesAt_of_writes (o := .auto) rfl⟩

/-- Settles O32: the sum is taken modulo 256; two adds leave V as one of the sum, and pc + 4 lies inside memory for
both. -/
theorem addByteWrapsWithoutFlag : Obligations.AddByteWrapsWithoutFlag := by
  refine ⟨fun x kk s => ⟨encodedInstructionDecodesBack (.addVxKk x kk) rfl, ?_⟩, fun x k1 k2 s hpc => ?_⟩
  · rw [← byte_add_eq_ofNat]
    exact completesAuto_addVxKk x kk s
  · have hin : (BitVec.ofNat 16 (s.pc.toNat + 2)).toNat + 2 < 0x1000 := by
      rw [BitVec.toNat_ofNat]; omega
    refine ⟨_, _, _, (completesAuto_addVxKk x k1 s).1 (by omega), (completesAuto_addVxKk x k2 _).1 hin,
      (completesAuto_addVxKk x _ s).1 (by omega), ?_⟩
    rw [← byte_add_eq_ofNat]
    have hV := congrArg State.V (setV_add_setV_add s x k1 k2)
    exact hV

/-- Settles O33: each of the four handlers writes its byte to Vx, with the plain advance. -/
theorem copyAndBitwiseWriteRegister : Obligations.CopyAndBitwiseWriteRegister := fun x y _ =>
  ⟨⟨encodedInstructionDecodesBack (.ldVxVy x y) rfl, completesAt_of_writes (o := .auto) rfl⟩,
    ⟨encodedInstructionDecodesBack (.orVxVy x y) rfl, completesAt_of_writes (o := .auto) rfl⟩,
    ⟨encodedInstructionDecodesBack (.andVxVy x y) rfl, completesAt_of_writes (o := .auto) rfl⟩,
    encodedInstructionDecodesBack (.xorVxVy x y) rfl, completesAt_of_writes (o := .auto) rfl⟩

/-- Settles O34: the sum beside its carry, and LISTED writes the flag last. -/
theorem addRegistersSetsCarry : Obligations.AddRegistersSetsCarry := fun x y s =>
  ⟨encodedInstructionDecodesBack (.addVxVy x y) rfl, completesAuto_of_writeRF (o := .resultThenFlag) <| by
    rw [← byte_add_eq_ofNat, ← flagByte_eq_ofNat]; rfl⟩

/-- Settles O35: the difference beside its NOT-borrow, and LISTED writes the result last. -/
theorem subtractSetsNotBorrow : Obligations.SubtractSetsNotBorrow := by
  refine fun x y s => ⟨⟨encodedInstructionDecodesBack (.subVxVy x y) rfl,
      completesAuto_of_writeRF (o := .flagThenResult) ?_⟩,
    encodedInstructionDecodesBack (.subnVxVy x y) rfl, completesAuto_of_writeRF (o := .flagThenResult) ?_⟩
  · rw [← byte_sub_eq_ofNat, ← flagByte_eq_ofNat]; rfl
  · rw [← byte_sub_eq_ofNat, ← flagByte_eq_ofNat]; rfl

/-- Settles O36: Vx shifted beside the bit shifted out, and LISTED writes the result last; neither handler reads y. -/
theorem shiftsSetBitShiftedOut : Obligations.ShiftsSetBitShiftedOut := by
  refine fun x y s => ⟨⟨encodedInstructionDecodesBack (.shrVx x y) rfl,
      completesAuto_of_writeRF (o := .flagThenResult) ?_⟩,
    encodedInstructionDecodesBack (.shlVx x y) rfl, completesAuto_of_writeRF (o := .flagThenResult) ?_⟩
  · rw [← byte_ushiftRight_one_eq_ofNat, ← shiftedOutRight_eq]; rfl
  · rw [← byte_shiftLeft_one_eq_ofNat, ← shiftedOutLeft_eq]; rfl

end Sys2Proof.Machine
end

section
/-! PROOFS. Index load, indexed jump, random and draw (43_index_jump_random_draw.md): the sprite's cells as places, what the
draw loop and DRW do to a display, and the five statements of this family. -/

namespace Sys2Proof.Machine

open Sys2Proof Sys2Proof.Claims

/-! ## The cells of a sprite as places (43_index_jump_random_draw.md R213 to R215) -/

/-- Column `col` of a sprite row is bit 7 − col. -/
theorem spriteBit_eq_getLsbD (b : Byte) (col : Nat) : spriteBit b col = b.getLsbD (7 - col) := by
  rw [spriteBit, BitVec.getLsbD_ushiftRight, Nat.add_zero]

/-- The cells that the draw loop toggles are those the sprite covers. -/
theorem mem_spritePixels_iff_spriteCovers {s : State} {x0 y0 n : Nat} {j : Fin 2048} :
    j ∈ spritePixels x0 y0 (s.readBytes s.dataBase n) ↔ spriteCovers s x0 y0 n j := by
  simp only [mem_spritePixels, readBytes_length, readBytes_getElem, spriteBit_eq_getLsbD, spriteCovers, State.dataBase,
    pixelIndex, Fin.ext_iff, exists_prop, exists_and_left]

/-! ## Flipping a set of cells -/

/-- `e` is `d` with the cells of `C` flipped and every other cell as it was. -/
structure Flips (C : Fin 2048 → Prop) (d e : Display) : Prop where
  covered : ∀ j, C j → e.cell j = !d.cell j
  other : ∀ j, ¬C j → e.cell j = d.cell j

/-- Flipping the same cells twice restores the display. -/
theorem Flips.twice {C : Fin 2048 → Prop} {d e d' : Display} (h : Flips C d e) (h' : Flips C e d') : d' = d := by
  refine display_ext fun j => ?_
  by_cases hj : C j
  · rw [h'.covered j hj, h.covered j hj, Bool.not_not]
  · rw [h'.other j hj, h.other j hj]

/-- A cell of `C` is on after the flip exactly when it was off before. -/
theorem Flips.exists_on_iff {C : Fin 2048 → Prop} {d e : Display} (h : Flips C d e) :
    (∃ j, C j ∧ e.cell j = true) ↔ ∃ j, C j ∧ d.cell j = false :=
  exists_congr fun j => and_congr_right fun hj => by rw [h.covered j hj, Bool.not_eq_true']

/-- The draw loop over different cells flips them. -/
theorem blit_flips {js : List (Fin 2048)} (hjs : js.Nodup) (d : Display) : Flips (· ∈ js) d (blit d js).1 where
  covered j hj := by rw [blit_cell hjs, decide_eq_true hj, Bool.xor_true]
  other j hj := by rw [blit_cell hjs, decide_eq_false hj, Bool.xor_false]

/-- The draw loop reports a collision exactly when one of its cells was on. -/
theorem blit_collision_iff {js : List (Fin 2048)} (hjs : js.Nodup) (d : Display) :
    (blit d js).2 = true ↔ ∃ j, j ∈ js ∧ d.cell j = true := by
  rw [blit_collision hjs, List.any_eq_true]

/-! ## DRW Vx,Vy,n -/

/-- The byte of a collision in VF is 1 exactly when there was one. -/
theorem flagByte_eq_one_iff (c : Bool) : flagByte c = 1 ↔ c = true := by
  cases c <;> decide

/-- DRW with its rows inside memory, or with none, flips the cells its sprite covers, and VF receives the collision. The rows
are at most 15, so no cell is toggled twice. -/
theorem drwVxVyN_completes {x y : Reg} {n : Nat} {s : State} (hn : n < 16) (hin : n = 0 ∨ s.I.toNat + n ≤ 0x1000) :
    ∃ (d : Display) (c : Bool),
      CompletesAuto (.drwVxVyN x y n) s { s with V := s.V.set 15 (flagByte c), display := d, drawFlag := true } ∧
      Flips (spriteCovers s s.V[x].toNat s.V[y].toNat n) s.display d ∧
      (c = true ↔ ∃ j, spriteCovers s s.V[x].toNat s.V[y].toNat n j ∧ s.display.cell j = true) := by
  have hrange : firstOutOfRange s.dataBase n = none := (firstOutOfRange_none_iff _ _).mpr hin
  have hnodup := spritePixels_nodup s.V[x].toNat s.V[y].toNat (s.readBytes s.dataBase n)
    (by rw [readBytes_length]; omega)
  have hflips := blit_flips hnodup s.display
  have hcollision := blit_collision_iff hnodup s.display
  simp only [mem_spritePixels_iff_spriteCovers] at hflips hcollision
  refine ⟨_, _, completesAt_of_writes (o := .auto) ?_, hflips, hcollision⟩
  simp only [exec, execDrwVxVyN, complete, hrange]
  rfl

/-! ## The statements -/

/-- Settles O40: VF's byte is the collision's flag. -/
theorem drawFlipsExactlyTheSpriteCells : Obligations.DrawFlipsExactlyTheSpriteCells := by
  refine fun x y n s => ⟨?_, fun hin => ?_⟩
  · have hback := encodedInstructionDecodesBack (.drwVxVyN x y n.toNat) (decide_eq_true n.isLt)
    rwa [encode, BitVec.ofNat_toNat, BitVec.setWidth_eq] at hback
  · have hrows : n.toNat = 0 ∨ s.I.toNat + n.toNat ≤ 0x1000 := hin.imp_left fun h => by rw [h]; rfl
    obtain ⟨d, c, hdone, hflips, hc⟩ := drwVxVyN_completes (x := x) (y := y) n.isLt hrows
    refine ⟨d, flagByte c, hdone, hflips.covered, hflips.other, ?_⟩
    rw [← hc]
    cases c
    · exact .inr ⟨rfl, Bool.false_ne_true⟩
    · exact .inl ⟨rfl, rfl⟩

/-- Settles O41: neither memory nor I nor the coordinates have changed, so the second draw covers the cells of the first, and
flips them back; it finds on what was off. -/
theorem drawingTwiceRestoresTheDisplay : Obligations.DrawingTwiceRestoresTheDisplay := by
  intro x y n s t hn hI hpc he hx hy
  obtain ⟨d, c, hdone, hflips, -⟩ := drwVxVyN_completes (x := x) (y := y) hn (.inr hI)
  have ht := Host.Outcome.next.inj (he.symm.trans (hdone.1 (by omega)))
  have hbase : t.I = s.I := by rw [ht]
  have hdisplay : t.display = d := by rw [ht]
  have hnext : t.pc.toNat + 2 < 0x1000 := by rw [ht, BitVec.toNat_ofNat]; omega
  have hsame : spriteCovers t s.V[x].toNat s.V[y].toNat n = spriteCovers s s.V[x].toNat s.V[y].toNat n := by
    rw [ht]; rfl
  obtain ⟨d', c', hdone', hflips', hc'⟩ := drwVxVyN_completes (x := x) (y := y) (s := t) hn (.inr (hbase ▸ hI))
  rw [hx, hy, hsame, hdisplay] at hflips' hc'
  refine ⟨_, hdone'.1 hnext, hflips.twice hflips', ?_⟩
  rw [← hflips.exists_on_iff, ← hc', ← flagByte_eq_one_iff, Vector.getElem_set_self]

/-- Settles O37: the zero extension is the number nnn, in 16 bits. -/
theorem loadIndexZeroExtends : Obligations.LoadIndexZeroExtends := fun nnn _ =>
  ⟨encodedInstructionDecodesBack (.ldIAddr nnn) rfl, completesAt_of_writes (o := .auto) <| by rw [← zext16_eq]; rfl⟩

/-- Settles O38: the handler writes nothing and sets pc to the sum itself. -/
theorem indexedJumpAddsV0 : Obligations.IndexedJumpAddsV0 := fun nnn s =>
  ⟨encodedInstructionDecodesBack (.jpV0Addr nnn) rfl,
    completesAt_of_writes (o := .selfSet ((s.getV 0).toNat + nnn.toNat)) rfl⟩

/-- Settles O39: the draw is the oracle's at the counter, and the counter advances. -/
theorem randomByteIsMasked : Obligations.RandomByteIsMasked := fun x kk _ =>
  ⟨encodedInstructionDecodesBack (.rndVxKk x kk) rfl, completesAt_of_writes (o := .auto) rfl⟩

end Sys2Proof.Machine
end

section
/-! PROOFS. Keys, timers, index arithmetic, font, BCD and block transfer (44_keys_timers_memory.md): I after an instruction,
the range check of a block, what the handlers read and store, and the ten statements of this family. -/

namespace Sys2Proof.Machine

open Sys2Proof Sys2Proof.Claims

/-! ## I as a number (44_keys_timers_memory.md R246, R247, R250) -/

theorem index_add_byte_eq_ofNat (i : Word) (b : Byte) :
    i + b.setWidth 16 = BitVec.ofNat 16 ((i.toNat + b.toNat) % 65536) :=
  BitVec.eq_of_toNat_eq (by simp)

section
variable (s : State) (x : Reg)

theorem glyphAddress_eq_ofNat :
    s.glyphAddress x = BitVec.ofNat 16 ((s.font.base.val + s.V[x].toNat * 5) % 65536) :=
  BitVec.eq_of_toNat_eq (by simp [State.glyphAddress, State.getV])

theorem blockIndex_eq_ite :
    s.blockIndex x = if s.legacyMode then BitVec.ofNat 16 ((s.I.toNat + x.val + 1) % 65536) else s.I := by
  unfold State.blockIndex
  split
  · exact BitVec.eq_of_toNat_eq (by simp [Nat.add_assoc])
  · rfl

/-- Only legacy mode advances I over a block (44_keys_timers_memory.md R250). -/
theorem blockIndex_eq_or_legacyMode : s.blockIndex x = s.I ∨ s.legacyMode = true := by
  unfold State.blockIndex
  split
  · exact .inr ‹_›
  · exact .inl rfl

end

/-! ## The frame of I (10_state.md section 1) -/

/-- The forms that write I: Annn, Fx1E and Fx29, and the two block transfers in legacy mode. -/
def WritesIndex (s : State) (i : Instr) : Prop :=
  (∃ nnn, i = .ldIAddr nnn) ∨ (∃ x, i = .addIVx x) ∨ (∃ x, i = .ldFVx x) ∨
    (s.legacyMode = true ∧ ∃ x, i = .ldMemVx x ∨ i = .ldVxMem x)

/-- Every handler's writes leave I, or its instruction is one of those forms. -/
theorem exec_commits_index (i : Instr) (s : State) :
    ∃ h : HandlerResult, h.Commits (fun t => t.I = s.I ∨ WritesIndex s i) ∧
      exec i s = .next (retire (encode i) s h) := by
  cases i <;> refine ⟨_, ?_, rfl⟩
  case ldIAddr nnn => exact .inr (.inl ⟨nnn, rfl⟩)
  case addIVx x => exact .inr (.inr (.inl ⟨x, rfl⟩))
  case ldFVx x => exact .inr (.inr (.inr (.inl ⟨x, rfl⟩)))
  case ldMemVx x =>
    split
    · trivial
    · exact (blockIndex_eq_or_legacyMode s x).imp_right fun hl => .inr (.inr (.inr ⟨hl, x, .inl rfl⟩))
  case ldVxMem x =>
    split
    · trivial
    · exact (blockIndex_eq_or_legacyMode s x).imp_right fun hl => .inr (.inr (.inr ⟨hl, x, .inr rfl⟩))
  case addVxVy | subVxVy | shrVx | subnVxVy | shlVx => exact .inl (writeRF_I ..)
  case ret | drwVxVyN | ldBVx =>
    split
    · trivial
    · exact .inl rfl
  case callAddr | skpVx | sknpVx =>
    split
    · exact .inl rfl
    · trivial
  case ldVxK => split <;> exact .inl rfl
  all_goals exact .inl rfl

/-! ## The keypad (44_keys_timers_memory.md R239 to R243) -/

/-- The key found is the one that is pressed with none below it pressed (92_eei_decisions.md D15). -/
theorem lowestKey_eq_some {s : State} {k : Fin 16} (hk : s.keypad[k] = true)
    (hbelow : ∀ j : Fin 16, j < k → s.keypad[j] = false) : s.lowestKey = some k := by
  cases hlow : s.lowestKey with
  | none => exact absurd hk (by simp [(lowestKey_none_iff s).mp hlow])
  | some j =>
    obtain ⟨hj, hbelowj⟩ := lowestKey_some hlow
    rcases lt_trichotomy j k with hlt | rfl | hgt
    · exact absurd hj (by simpa using hbelow j hlt)
    · rfl
    · exact absurd hk (by simpa using hbelowj k hgt)

section
variable {s : State} {x : Reg}

/-- With a key's index in Vx, SKP's handler answers Skip of that key. -/
theorem exec_skpVx_reads {k : Fin 16} (hk : s.V[x].toNat = k.val) :
    exec (.skpVx x) s = .next (retire (encode (.skpVx x)) s (.writes s (.autoSkip (s.keypad[k] = true)))) := by
  have hidx : (s.getV x).toNat = k.val := hk
  simp only [exec, execSkpVx, complete, hidx, k.isLt, dite_true, Bool.decide_eq_true]
  rfl

/-- With a key's index in Vx, SKNP's handler answers Skip of that key's negation. -/
theorem exec_sknpVx_reads {k : Fin 16} (hk : s.V[x].toNat = k.val) :
    exec (.sknpVx x) s = .next (retire (encode (.sknpVx x)) s (.writes s (.autoSkip (s.keypad[k] = false)))) := by
  have hidx : (s.getV x).toNat = k.val := hk
  simp only [exec, execSknpVx, complete, hidx, k.isLt, dite_true, Bool.decide_eq_false]
  rfl

/-- An index above 15 is the key tests' own fault (60_exceptions.md R287). -/
theorem exec_skips_raise (hx : 15 < s.V[x].toNat) :
    exec (.skpVx x) s = .next (faulted s (.skpVx x) .keyIndexOutOfRange (some s.V[x].toNat)) ∧
    exec (.sknpVx x) s = .next (faulted s (.sknpVx x) .keyIndexOutOfRange (some s.V[x].toNat)) := by
  have hidx : ¬(s.getV x).toNat < 16 := Nat.not_lt.mpr hx
  constructor
  · simp only [exec, execSkpVx, complete, hidx, dite_false]; rfl
  · simp only [exec, execSknpVx, complete, hidx, dite_false]; rfl

/-! ## Blocks of memory (20_memory.md R64; 44_keys_timers_memory.md R248 to R252) -/

/-- An instruction that raises what the range check of its `n` bytes answers takes MemoryOutOfRange at the lowest address
outside memory. -/
theorem exec_of_rangeCheck_outside {i : Instr} {n : Nat} (hn : n ≠ 0) (hout : 0x1000 < s.I.toNat + n)
    (he : ∀ a, firstOutOfRange s.dataBase n = some a →
      exec i s = .next (retire (encode i) s (.raises .memoryOutOfRange (some a)))) :
    exec i s = .next (faulted s i .memoryOutOfRange (some (max s.I.toNat 0x1000))) :=
  he _ (firstOutOfRange_outside hn hout)

/-- The k-th of consecutive bytes written. -/
theorem readByte_writeBytes_inside {a k : Nat} {bs : List Byte} (hk : k < bs.length) :
    (s.writeBytes a bs).readByte (a + k) = bs[k] := by
  rw [readByte_writeBytes, dif_pos (by omega)]
  simp only [Nat.add_sub_cancel_left]

/-- LD B,Vx inside memory stores the three digits. -/
theorem completesAuto_ldBVx (hin : s.I.toNat + 2 < 0x1000) :
    CompletesAuto (.ldBVx x) s (s.writeBytes s.I.toNat (bcdDigits (s.getV x))) := by
  have hrange : firstOutOfRange s.dataBase 3 = none := firstOutOfRange_inside hin
  refine completesAt_of_writes (o := .auto) ?_
  simp only [exec, execLdBVx, complete, hrange]
  rfl

/-- LD [I],Vx inside memory stores V0 to Vx and writes I. -/
theorem completesAuto_ldMemVx (hin : s.I.toNat + x.val < 0x1000) :
    CompletesAuto (.ldMemVx x) s
      { s.writeBytes s.I.toNat (s.registersUpTo x) with
        I := if s.legacyMode then BitVec.ofNat 16 ((s.I.toNat + x.val + 1) % 65536) else s.I } := by
  have hrange : firstOutOfRange s.dataBase (x.val + 1) = none := firstOutOfRange_inside hin
  refine completesAt_of_writes (o := .auto) ?_
  simp only [exec, execLdMemVx, complete, hrange, ← blockIndex_eq_ite]
  rfl

/-- LD Vx,[I] inside memory loads V0 to Vx and writes I. -/
theorem completesAuto_ldVxMem (hin : s.I.toNat + x.val < 0x1000) :
    CompletesAuto (.ldVxMem x) s
      { s with
        V := loadRegisters s.V 0 (s.readBytes s.I.toNat (x.val + 1))
        I := if s.legacyMode then BitVec.ofNat 16 ((s.I.toNat + x.val + 1) % 65536) else s.I } := by
  have hrange : firstOutOfRange s.dataBase (x.val + 1) = none := firstOutOfRange_inside hin
  refine completesAt_of_writes (o := .auto) ?_
  simp only [exec, execLdVxMem, complete, hrange, ← blockIndex_eq_ite]
  rfl

/-- The registers up to Vx take the bytes read, and those above it stay (44_keys_timers_memory.md R252). -/
theorem loadRegisters_readBytes_getElem (a : Nat) (k : Reg) :
    (loadRegisters s.V 0 (s.readBytes a (x.val + 1)))[k] = if k ≤ x then s.readByte (a + k.val) else s.V[k] := by
  rw [Fin.getElem_fin, loadRegisters_getElem]
  by_cases hk : k ≤ x
  · simp [readBytes_getElem, hk]
  · simp [hk]

end

/-! ## The statements -/

/-- Settles O19: I after a step is what the handler wrote, or what it was when the step faults. -/
theorem onlyIndexInstructionsChangeI : Obligations.OnlyIndexInstructionsChangeI := by
  intro i s t he hne
  obtain ⟨h, hc, hr⟩ := exec_commits_index i s
  obtain rfl := Host.Outcome.next.inj (hr.symm.trans he)
  have hframe : (retire (encode i) s h).I = s.I ∨ WritesIndex s i :=
    retire_of_commits (P := fun t => t.I = s.I ∨ WritesIndex s i) (fun _ => .inl rfl) (fun _ _ ht => ht) hc
  exact hframe.resolve_left hne

/-- Settles O42: an index that names a key answers Skip of it, and one above 15 names none. -/
theorem keySkipsReadTheKeypad : Obligations.KeySkipsReadTheKeypad := fun x _ =>
  ⟨encodedInstructionDecodesBack (.skpVx x) rfl, encodedInstructionDecodesBack (.sknpVx x) rfl,
    fun _ hk => ⟨skipsWhen_of_autoSkip (exec_skpVx_reads hk), skipsWhen_of_autoSkip (exec_sknpVx_reads hk)⟩,
    exec_skips_raise⟩

/-- Settles O43: one handler writes dt to Vx, the other Vx to dt, with the plain advance. -/
theorem delayTimerIsReadAndSet : Obligations.DelayTimerIsReadAndSet := fun x _ =>
  ⟨⟨encodedInstructionDecodesBack (.ldVxDt x) rfl, completesAt_of_writes (o := .auto) rfl⟩,
    encodedInstructionDecodesBack (.ldDtVx x) rfl, completesAt_of_writes (o := .auto) rfl⟩

/-- Settles O44: the handler writes Vx to st, and a completed step reports nothing. -/
theorem soundTimerIsSetSilently : Obligations.SoundTimerIsSetSilently := fun x _ =>
  ⟨encodedInstructionDecodesBack (.ldStVx x) rfl, completesAt_of_writes (o := .auto) rfl⟩

/-- Settles O45: with no lowest key the handler answers Hold, and with one it loads it. -/
theorem keyWaitHoldsUntilAKeyIsPressed : Obligations.KeyWaitHoldsUntilAKeyIsPressed := by
  refine fun x s => ⟨encodedInstructionDecodesBack (.ldVxK x) rfl, fun hnone => ?_, fun k hk hbelow => ?_⟩
  · have hlow := (lowestKey_none_iff s).mpr hnone
    exact completesAt_of_writes (o := .hold) (by simp only [exec, execLdVxK, complete, hlow])
  · have hlow := lowestKey_eq_some hk hbelow
    exact completesAt_of_writes (o := .auto) (by simp only [exec, execLdVxK, complete, hlow]; rfl)

/-- Settles O46: the 16-bit sum is the sum modulo 65536. -/
theorem addToIndexWraps : Obligations.AddToIndexWraps := fun x _ =>
  ⟨encodedInstructionDecodesBack (.addIVx x) rfl, completesAt_of_writes (o := .auto) <| by
    rw [← index_add_byte_eq_ofNat]; rfl⟩

/-- Settles O47: the glyph's address is taken from V[x] as it stands. -/
theorem fontGlyphAddress : Obligations.FontGlyphAddress := fun x _ =>
  ⟨encodedInstructionDecodesBack (.ldFVx x) rfl, completesAt_of_writes (o := .auto) <| by
    rw [← glyphAddress_eq_ofNat]; rfl⟩

/-- Settles O48: inside memory the digits are the three bytes of the block, and outside it the range check faults. -/
theorem storeBcdWritesThreeDigits : Obligations.StoreBcdWritesThreeDigits := by
  refine fun x s => ⟨encodedInstructionDecodesBack (.ldBVx x) rfl, fun hin => ?_, fun hout => ?_⟩
  · have hdigit (k : Nat) (hk : k < 3) := readByte_writeBytes_inside (s := s) (a := s.I.toNat)
      (bs := bcdDigits (s.getV x)) hk
    refine ⟨(s.writeBytes s.I.toNat _).memory, completesAuto_ldBVx hin,
      hdigit 0 (by decide), hdigit 1 (by decide), hdigit 2 (by decide), fun a ha => readByte_writeBytes_outside ?_⟩
    rw [bcdDigits_length]
    omega
  · exact exec_of_rangeCheck_outside three_ne_zero (by omega) fun a ha => by
      simp only [exec, execLdBVx, complete, ha]

/-- Settles O49: the same for the block of V0 to Vx. -/
theorem storeRegistersWritesBlock : Obligations.StoreRegistersWritesBlock := by
  refine fun x s => ⟨encodedInstructionDecodesBack (.ldMemVx x) rfl, fun hin => ?_, fun hout => ?_⟩
  · refine ⟨_, completesAuto_ldMemVx hin, fun k hk => readByte_storedRegisters s hk,
      fun a ha => readByte_writeBytes_outside ?_⟩
    rw [registersUpTo_length]
    omega
  · exact exec_of_rangeCheck_outside x.val.succ_ne_zero (by omega) fun a ha => by
      simp only [exec, execLdMemVx, complete, ha]

/-- Settles O50: the block goes to V0 to Vx, and no register above takes a byte. -/
theorem loadRegistersReadsBlock : Obligations.LoadRegistersReadsBlock := by
  refine fun x s => ⟨encodedInstructionDecodesBack (.ldVxMem x) rfl, fun hin => ?_, fun hout => ?_⟩
  · refine ⟨_, completesAuto_ldVxMem hin, fun k hk => ?_, fun k hk => ?_⟩
    · rw [loadRegisters_readBytes_getElem, if_pos hk]
    · rw [loadRegisters_readBytes_getElem, if_neg (not_le.mpr hk)]
  · exact exec_of_rangeCheck_outside x.val.succ_ne_zero (by omega) fun a ha => by
      simp only [exec, execLdVxMem, complete, ha]

end Sys2Proof.Machine
end

section
/-! PROOFS. Exceptions (60_exceptions.md): the cause of every fault an instruction takes, what a running engine's step
answers, the timers over ticks, a halted session, and the ten statements of this family. -/

namespace Sys2Proof.Machine

open Sys2Proof Sys2Proof.Claims

/-! ## The range check as a cause (20_memory.md R64; 60_exceptions.md R283) -/

/-- An address the range check names is one of those checked, it lies outside memory, and those before it lie inside. -/
theorem firstOutOfRange_eq_some {a n b : Nat} (h : firstOutOfRange a n = some b) :
    ∃ k, k < n ∧ b = a + k ∧ 0x1000 ≤ a + k ∧ ∀ j, j < k → a + j < 0x1000 := by
  have hout : ¬(n = 0 ∨ a + n ≤ 0x1000) := by simp [← firstOutOfRange_none_iff, h]
  obtain ⟨hn, hend⟩ := not_or.mp hout
  obtain rfl : max a 0x1000 = b :=
    Option.some.inj ((firstOutOfRange_outside hn (Nat.lt_of_not_le hend)).symm.trans h)
  exact ⟨max a 0x1000 - a, by omega, by omega, by omega, fun j hj => by omega⟩

/-- A range check that passes leaves no checked address outside memory. -/
theorem lt_of_firstOutOfRange_eq_none {a n k : Nat} (h : firstOutOfRange a n = none) (hk : k < n) : a + k < 0x1000 := by
  rcases (firstOutOfRange_none_iff a n).mp h with hn | hend <;> omega

/-- The instructions that access data through I are DRW, LD B, LD [I] and LD Vx,[I] (20_memory.md R60). -/
theorem accesses_of_accessCount_pos {i : Instr} (h : 0 < accessCount i) :
    (∃ x y n, i = .drwVxVyN x y n) ∨ ∃ x, i = .ldBVx x ∨ i = .ldMemVx x ∨ i = .ldVxMem x := by
  cases i
  case drwVxVyN x y n => exact .inl ⟨x, y, n, rfl⟩
  case ldBVx x => exact .inr ⟨x, .inl rfl⟩
  case ldMemVx x => exact .inr ⟨x, .inr (.inl rfl)⟩
  case ldVxMem x => exact .inr ⟨x, .inr (.inr rfl)⟩
  all_goals exact absurd h (Nat.lt_irrefl 0)

/-! ## pc_next as the statement writes it (40_cycle_engine.md R125, R126) -/

theorem pcNext_autoSkip (pc : Word) (c : Bool) : pcNext pc (.autoSkip c) = pc.toNat + (if c = true then 4 else 2) := by
  cases c <;> rfl

section
variable {s : State} {x : Reg}

/-- Where Vx names a key, the key it names is the one read. -/
theorem exists_key_iff (hx : (s.getV x).toNat < 16) (b : Bool) :
    (∃ k : Fin 16, s.V[x].toNat = k.val ∧ s.keypad[k] = b) ↔ s.keypad[(s.getV x).toNat] = b := by
  refine ⟨fun ⟨k, hk, hb⟩ => ?_, fun hb => ⟨⟨_, hx⟩, rfl, hb⟩⟩
  obtain rfl : ⟨(s.getV x).toNat, hx⟩ = k := Fin.ext hk
  exact hb

theorem newPc_skpVx (hx : (s.getV x).toNat < 16) :
    newPc s (.skpVx x) = pcNext s.pc (.autoSkip s.keypad[(s.getV x).toNat]) := by
  simp only [newPc, exists_key_iff hx, pcNext_autoSkip]

theorem newPc_sknpVx (hx : (s.getV x).toNat < 16) :
    newPc s (.sknpVx x) = pcNext s.pc (.autoSkip !s.keypad[(s.getV x).toNat]) := by
  simp only [newPc, exists_key_iff hx, pcNext_autoSkip, Bool.not_eq_true']

/-- With no key pressed LD Vx,K holds pc. -/
theorem newPc_ldVxK_none (h : s.lowestKey = none) : newPc s (.ldVxK x) = pcNext s.pc .hold := by
  have hnone : ¬∃ k : Fin 16, s.keypad[k] = true := fun ⟨k, hk⟩ =>
    Bool.false_ne_true (((lowestKey_none_iff s).mp h k).symm.trans hk)
  simp only [newPc, hnone, if_false, Nat.add_zero, pcNext]

/-- With a key pressed it takes the plain advance. -/
theorem newPc_ldVxK_some {k : Fin 16} (h : s.lowestKey = some k) : newPc s (.ldVxK x) = pcNext s.pc .auto := by
  have hsome : ∃ k : Fin 16, s.keypad[k] = true := ⟨k, (lowestKey_some h).1⟩
  simp only [newPc, hsome, if_true, pcNext]

end

/-! ## Every fault has its cause (60_exceptions.md R281, R289) -/

/-- The rows of the fault table that an instruction can take, with their extra information. -/
inductive FaultCause (i : Instr) (s : State) : FaultCode → Option Nat → Prop where
  | stackOverflow (hi : ∃ nnn, i = .callAddr nnn) (hsp : s.sp = 16) : FaultCause i s .stackOverflow none
  | stackUnderflow (hi : i = .ret) (hsp : s.sp = 0) : FaultCause i s .stackUnderflow none
  | memoryOutOfRange {a : Nat} (ha : firstOutOfRange s.dataBase (accessCount i) = some a) :
      FaultCause i s .memoryOutOfRange (some a)
  | pcOutOfRange (hpc : 0x1000 ≤ newPc s i) (hin : firstOutOfRange s.dataBase (accessCount i) = none) :
      FaultCause i s .pcOutOfRange (some (newPc s i))
  | keyIndexOutOfRange {x : Reg} (hi : i = .skpVx x ∨ i = .sknpVx x) (hx : 15 < (s.getV x).toNat) :
      FaultCause i s .keyIndexOutOfRange (some (s.getV x).toNat)

/-- A handler's fault has its cause; its writes leave the fault's record, go on at pc_next, and come after a range check
that passed. -/
def HandlerResult.Justified (i : Instr) (s : State) : HandlerResult → Prop
  | .raises code extra => FaultCause i s code extra
  | .writes t o =>
    t.fault = s.fault ∧ newPc s i = pcNext s.pc o ∧ firstOutOfRange s.dataBase (accessCount i) = none

/-- Every handler's answer is justified: the stack, the range check and the key index are its only own faults. -/
theorem exec_justified (i : Instr) (s : State) :
    ∃ h : HandlerResult, h.Justified i s ∧ exec i s = .next (retire (encode i) s h) := by
  cases i <;> refine ⟨_, ?_, rfl⟩
  case ret =>
    split
    · exact .stackUnderflow rfl (Fin.ext ‹_›)
    · exact ⟨rfl, rfl, rfl⟩
  case callAddr nnn =>
    split
    · exact ⟨rfl, (zext16_toNat nnn).symm, rfl⟩
    next hsp =>
      exact .stackOverflow ⟨nnn, rfl⟩ (Fin.ext (Nat.le_antisymm (Nat.le_of_lt_succ s.sp.isLt) (Nat.le_of_not_lt hsp)))
  case jpAddr nnn => exact ⟨rfl, (zext16_toNat nnn).symm, rfl⟩
  case seVxKk | sneVxKk | seVxVy | sneVxVy =>
    refine ⟨rfl, ?_, rfl⟩
    simp only [pcNext_autoSkip, decide_eq_true_eq]
    rfl
  case skpVx x =>
    split
    · exact ⟨rfl, newPc_skpVx ‹_›, rfl⟩
    next hx => exact .keyIndexOutOfRange (.inl rfl) (Nat.le_of_not_lt hx)
  case sknpVx x =>
    split
    · exact ⟨rfl, newPc_sknpVx ‹_›, rfl⟩
    next hx => exact .keyIndexOutOfRange (.inr rfl) (Nat.le_of_not_lt hx)
  case ldVxK x =>
    split
    · exact ⟨rfl, newPc_ldVxK_none ‹_›, rfl⟩
    · exact ⟨rfl, newPc_ldVxK_some ‹_›, rfl⟩
  case drwVxVyN | ldBVx | ldMemVx | ldVxMem =>
    split
    · exact .memoryOutOfRange ‹_›
    · exact ⟨rfl, rfl, ‹_›⟩
  case addVxVy | subVxVy | shrVx | subnVxVy | shlVx => exact ⟨writeRF_fault .., rfl, rfl⟩
  all_goals exact ⟨rfl, rfl, rfl⟩

/-- A fault found after the end of a step, where none was recorded before, was taken there for its cause. -/
theorem retire_fault_cause {i : Instr} {s : State} {h : HandlerResult} {r : FaultRecord} (hj : h.Justified i s)
    (hs : s.fault = none) (hr : (retire (encode i) s h).fault = some r) :
    ∃ code extra, FaultCause i s code extra ∧ r = ⟨code, s.pc, some (encode i), extra⟩ := by
  cases h with
  | raises code extra => exact ⟨code, extra, hj, (Option.some.inj hr).symm⟩
  | writes t o =>
    obtain ⟨hfault, hpc, hin⟩ := hj
    rcases Nat.lt_or_ge (pcNext s.pc o) 0x1000 with hlt | hge
    · rw [retire_writes hlt] at hr
      exact absurd hr (by simp [hfault, hs])
    · rw [retire_outOfRange hge, ← hpc] at hr
      exact ⟨_, _, .pcOutOfRange (hpc ▸ hge) hin, (Option.some.inj hr).symm⟩

/-! ## What a step answers -/

/-- The step of an unknown word: the diagnostic and the plain advance, or the diagnostic and then PcOutOfRange
(40_cycle_engine.md R128; 60_exceptions.md R289). -/
theorem unknownOpcode_inside {s : State} (w : Word) (h : s.pc.toNat + 2 < 0x1000) :
    s.unknownOpcode w = { s with pc := s.pc + 2, events := [.unknownOpcode s.pc w] } := by
  rw [State.unknownOpcode, retire_writes (o := .auto) h, pcNext, ofNat_pc_add]
  rfl

theorem unknownOpcode_outside {s : State} (w : Word) (h : 0x1000 ≤ s.pc.toNat + 2) :
    s.unknownOpcode w =
      { s with
        halted := true
        fault := some ⟨.pcOutOfRange, s.pc, some w, some (s.pc.toNat + 2)⟩
        events := [.unknownOpcode s.pc w, .fault ⟨.pcOutOfRange, s.pc, some w, some (s.pc.toNat + 2)⟩] } := by
  rw [State.unknownOpcode, retire_outOfRange (o := .auto) h]
  rfl

/-- `t` is `s` with a fault entered at its pc and reported, and nothing else changed (60_exceptions.md R282). -/
def EntersFault (s t : State) : Prop :=
  ∃ r : FaultRecord, t = { s with halted := true, fault := some r, events := t.events } ∧ r.pc = s.pc ∧
    Event.fault r ∈ t.events

theorem takeFault_entersFault {s : State} {r : FaultRecord} (h : r.pc = s.pc) : EntersFault s (s.takeFault r) :=
  ⟨r, rfl, h, List.mem_singleton_self _⟩

/-- An instruction that leaves a running engine halted has taken a fault. -/
theorem exec_entersFault {i : Instr} {s t : State} (hrun : s.halted = false) (he : exec i s = .next t)
    (ht : t.halted = true) : EntersFault s t := by
  rcases exec_cases i s with ⟨code, extra, h⟩ | ⟨u, n, -, hu, h⟩
  · obtain rfl := Host.Outcome.next.inj (h.symm.trans he)
    exact takeFault_entersFault rfl
  · obtain rfl := Host.Outcome.next.inj (h.symm.trans he)
    exact absurd ht (by simp [hu.halted, hrun])

/-- An unknown word that does so has taken PcOutOfRange. -/
theorem unknownOpcode_entersFault {s : State} {w : Word} (hrun : s.halted = false)
    (ht : (s.unknownOpcode w).halted = true) : EntersFault s (s.unknownOpcode w) := by
  rcases Nat.lt_or_ge (s.pc.toNat + 2) 0x1000 with hlt | hge
  · rw [unknownOpcode_inside w hlt] at ht
    exact absurd ht (by simp [hrun])
  · rw [unknownOpcode_outside w hge]
    exact ⟨_, rfl, rfl, List.mem_cons_of_mem _ (List.mem_singleton_self _)⟩

/-! ## The timers (60_exceptions.md R293 to R296) -/

/-- One decrement in numbers. -/
theorem decrement_eq_ofNat (t : Byte) : decrement t = BitVec.ofNat 8 (t.toNat - 1) := by
  unfold decrement
  split
  · subst t; rfl
  · exact BitVec.eq_of_toNat_eq (by bv_omega)

theorem tick_running {s : State} (hrun : s.halted = false) : s.tick = { s with
    dt := BitVec.ofNat 8 (s.dt.toNat - 1)
    st := BitVec.ofNat 8 (s.st.toNat - 1)
    events := if s.st.toNat = 1 then [Event.toneStop] else [] } := by
  have hst : s.st = 1 ↔ s.st.toNat = 1 := BitVec.toNat_inj.symm
  simp only [State.tick, hrun, Bool.false_eq_true, if_false, decrement_eq_ofNat, hst]

theorem tick_halted_eq {s : State} (hhalt : s.halted = true) : s.tick = { s with events := [] } := if_pos hhalt

theorem toNat_ofNat_pred (t : Byte) : (BitVec.ofNat 8 (t.toNat - 1)).toNat = t.toNat - 1 := by
  rw [BitVec.toNat_ofNat, Nat.mod_eq_of_lt (by omega)]

/-- st reaches 0 either at the first of k + 1 ticks or among the k after it, never both. -/
theorem toneStop_append (st k : Nat) :
    (if st = 1 then [Event.toneStop] else []) ++ (if 1 ≤ st - 1 ∧ st - 1 ≤ k then [Event.toneStop] else []) =
      if 1 ≤ st ∧ st ≤ k + 1 then [Event.toneStop] else [] := by
  by_cases hone : st = 1
  · simp [hone]
  · have hiff : (1 ≤ st - 1 ∧ st - 1 ≤ k) ↔ (1 ≤ st ∧ st ≤ k + 1) := by omega
    simp only [hone, if_false, List.nil_append, hiff]

theorem decayTimers_halted {s : State} (hhalt : s.halted = true) (k : Nat) :
    s.decayTimers k = { s with events := [] } := by
  induction k generalizing s with
  | zero => rfl
  | succ k ih =>
    simp only [State.decayTimers, ih ((tick_halted s).trans hhalt)]
    simp only [tick_halted_eq hhalt, List.append_nil]

/-! ## The halted session (60_exceptions.md R290, R296) -/

/-- An operation on a halted engine writes the keypad, draw_flag and the report at most (40_cycle_engine.md R122;
60_exceptions.md R297, R298). -/
theorem perform_halted {s : State} (hhalt : s.halted = true) (op : HostOp) :
    ∃ keypad drawFlag events, op.perform s = { s with keypad := keypad, drawFlag := drawFlag, events := events } := by
  cases op with
  | step => exact ⟨_, _, _, by simp only [HostOp.perform, step_halted hhalt]; rfl⟩
  | decayTimers k => exact ⟨_, _, _, decayTimers_halted hhalt k⟩
  | keyWrite | drawAck | readDisplay | dump => exact ⟨_, _, _, rfl⟩

/-- So does a whole schedule. -/
theorem runHost_halted {s : State} (hhalt : s.halted = true) (ops : List HostOp) :
    ∃ keypad drawFlag events, runHost ops s = { s with keypad := keypad, drawFlag := drawFlag, events := events } := by
  induction ops generalizing s with
  | nil => exact ⟨_, _, _, rfl⟩
  | cons op ops ih =>
    obtain ⟨keypad, drawFlag, events, h⟩ := perform_halted hhalt op
    simp only [runHost, h]
    exact ih hhalt

/-! ## The statements -/

/-- Settles O10: every instruction ends through `retire` in a next state, and so do a fetch fault and an unknown word. -/
theorem everyStepOfARunningEngineAnswers : Obligations.EveryStepOfARunningEngineAnswers := by
  have hexec (i : Instr) (s : State) : ∃ t, exec i s = .next t :=
    let ⟨_, _, h⟩ := exec_retires i s
    ⟨_, h⟩
  refine ⟨fun s hrun => ?_, hexec⟩
  rcases Nat.lt_or_ge 0xFFE s.pc.toNat with hp | hp
  · exact ⟨_, step_fetch_fault hrun hp⟩
  · cases hd : decode s.fetchWord with
    | ok i => exact step_decoded hrun hp hd ▸ hexec i s
    | error e => exact ⟨_, step_unknown hrun hp hd⟩

/-- Settles O11: a fetch fault, a decoded instruction and an unknown word each end a halting step in fault entry. -/
theorem faultEntryIsPrecise : Obligations.FaultEntryIsPrecise := by
  intro s t hrun hstep ht
  obtain ⟨-, ⟨-, rfl⟩ | ⟨i, -, -, he⟩ | ⟨e, -, -, rfl⟩⟩ := step_next_cases hstep
  · exact takeFault_entersFault rfl
  · exact exec_entersFault hrun he ht
  · exact unknownOpcode_entersFault hrun ht

/-- Settles O12: the fault was taken at the end of the step for its cause, and each cause is its row of the table. -/
theorem faultCausesAreThoseOfTheTable : Obligations.FaultCausesAreThoseOfTheTable := by
  intro i s t r hs he hr
  obtain ⟨h, hj, hret⟩ := exec_justified i s
  obtain rfl := Host.Outcome.next.inj (hret.symm.trans he)
  obtain ⟨code, extra, hcause, rfl⟩ := retire_fault_cause hj hs hr
  refine ⟨rfl, rfl, ?_⟩
  cases hcause with
  | stackOverflow hi hsp => exact ⟨hi, hsp, rfl⟩
  | stackUnderflow hi hsp => exact ⟨hi, hsp, rfl⟩
  | memoryOutOfRange ha =>
    obtain ⟨k, hk, rfl, hout, hbelow⟩ := firstOutOfRange_eq_some ha
    exact ⟨accesses_of_accessCount_pos (Nat.zero_lt_of_lt hk), k, hk, rfl, hout, hbelow⟩
  | pcOutOfRange hpc hin => exact ⟨rfl, hpc, fun k hk => lt_of_firstOutOfRange_eq_none hin hk⟩
  | keyIndexOutOfRange hi hx => exact ⟨_, hi, hx, rfl⟩

/-- Settles O13: DRW raises what the range check of its rows answers, and with no rows it checks none; the other three are
the last clauses of their own statements. -/
theorem memoryRangeFaultNamesLowestAddress : Obligations.MemoryRangeFaultNamesLowestAddress := by
  refine ⟨fun x y n s hn hout => ?_, fun x s hout => ?_, fun x s hout => ?_, fun x s hout => ?_, fun x y s => ?_⟩
  · exact exec_of_rangeCheck_outside hn hout fun a ha => by simp only [exec, execDrwVxVyN, complete, ha]
  · exact (storeBcdWritesThreeDigits x s).2.2 (Nat.le_of_lt_succ hout)
  · exact (storeRegistersWritesBlock x s).2.2 (Nat.le_of_lt_succ hout)
  · exact (loadRegistersReadsBlock x s).2.2 (Nat.le_of_lt_succ hout)
  · obtain ⟨d, c, hdone, -⟩ := drwVxVyN_completes (x := x) (y := y) (s := s) (n := 0) (by decide) (.inl rfl)
    exact ⟨_, hdone⟩

/-- Settles O17: no operation on a halted engine writes a field the statement names. -/
theorem haltedSessionIsFinal : Obligations.HaltedSessionIsFinal := by
  intro s ops hhalt
  obtain ⟨keypad, drawFlag, events, h⟩ := runHost_halted hhalt ops
  simp only [h, hhalt, and_self]

/-- Settles O54, by induction on the ticks: the first is one tick of a running engine, which it leaves running. -/
theorem decayTimersCountsDown : Obligations.DecayTimersCountsDown := by
  intro k
  induction k with
  | zero =>
    intro s _
    have hnone : ¬(1 ≤ s.st.toNat ∧ s.st.toNat ≤ 0) := by omega
    simp only [State.decayTimers, Nat.sub_zero, BitVec.ofNat_toNat, BitVec.setWidth_eq, hnone, if_false]
  | succ k ih =>
    intro s hrun
    simp only [State.decayTimers, ih s.tick ((tick_halted s).trans hrun)]
    simp only [tick_running hrun, toNat_ofNat_pred, toneStop_append, Nat.sub_sub, Nat.add_comm 1 k]

/-- Settles O8: no fetch fault below the top, and the plain advance stays inside memory. -/
theorem unknownOpcodeIsReportedNoOp : Obligations.UnknownOpcodeIsReportedNoOp := by
  rintro s _ e hrun hpc rfl hd
  exact (step_unknown hrun (by omega) hd).trans (congrArg Host.Outcome.next (unknownOpcode_inside _ hpc))

/-- Settles O9: at 0xFFE the word can be fetched, and the plain advance leaves memory. -/
theorem unknownOpcodeAtTopReportsDiagnosticThenFault : Obligations.UnknownOpcodeAtTopReportsDiagnosticThenFault := by
  rintro s _ e hrun hpc rfl hd
  have htop : s.pc.toNat = 0xFFE := congrArg BitVec.toNat hpc
  have hword : s.fetchWord = s.readByte 0xFFE ++ s.readByte 0xFFF := by rw [State.fetchWord, htop]; rfl
  rw [step_unknown hrun htop.le (hword ▸ hd), unknownOpcode_outside _ (by omega), hword, htop, hpc]

/-- Settles O53: a running engine's tick in numbers, and a halted one's. -/
theorem tickDecrementsTimers : Obligations.TickDecrementsTimers :=
  ⟨fun _ => tick_running, fun _ => tick_halted_eq⟩

/-- Settles O55: the key write is the vector's, and the two reads list cells and bytes from index 0. -/
theorem hostReadsAndWritesOnlyItsOwnState : Obligations.HostReadsAndWritesOnlyItsOwnState := by
  refine fun s k b => ⟨fun j => ?_, rfl, rfl, fun j => ?_, rfl, fun a => ?_, rfl, rfl⟩
  · simp only [keyWrite_keypad, Fin.getElem_fin, Vector.getElem_set, Fin.ext_iff, eq_comm]
  · simp [State.readDisplay]
  · have ha : a.val < (s.readBytes 0 Config.memSize).length := by rw [readBytes_length]; exact a.isLt
    rw [State.dump, List.getElem?_eq_getElem ha, readBytes_getElem, Nat.zero_add]

end Sys2Proof.Machine
end

section
/-! PROOFS. Session start, and the loop that a program stops with (70_reset_and_hazards.md sections 1 and 4): when a session
starts and which state it starts in, and the three statements of this family. -/

namespace Sys2Proof.Machine

/-! ## Session start, said once (70_reset_and_hazards.md R330, R331) -/

/-- What `session_start` builds from an input that it does not reject (70_reset_and_hazards.md R330). -/
def startState (order : VfWriteOrder) (font : Font) (config : SessionConfig) (rom : List Byte) : State :=
  { State.reset with
    memory := Memory.writeBytes font [] Config.progBase rom
    legacyMode := config.legacyMode
    vfWriteOrder := order
    font := font }

section
variable {order : VfWriteOrder} {font : Font} {config : SessionConfig} {rom : List Byte}

/-- The clock rate is checked before the ROM's length. -/
theorem sessionStart_of_badClockRate (hrate : config.clockRate ≤ 0) :
    sessionStart order font config rom = .error .malformedConfiguration := if_pos hrate

theorem sessionStart_of_longRom (hrate : 0 < config.clockRate) (hlong : 3584 < rom.length) :
    sessionStart order font config rom = .error .romTooLarge :=
  (if_neg (Int.not_le.mpr hrate)).trans (if_pos hlong)

theorem sessionStart_accepts (hrate : 0 < config.clockRate) (hfits : rom.length ≤ 3584) :
    sessionStart order font config rom = .ok (startState order font config rom) :=
  (if_neg (Int.not_le.mpr hrate)).trans (if_neg (Nat.not_lt.mpr hfits))

/-- A session that starts was given a ROM that fits, and starts in `startState`. -/
theorem sessionStart_eq_ok {s : State} (h : sessionStart order font config rom = .ok s) :
    rom.length ≤ 3584 ∧ s = startState order font config rom := by
  rcases Int.lt_or_le 0 config.clockRate with hrate | hrate
  · rcases Nat.lt_or_ge 3584 rom.length with hlong | hfits
    · rw [sessionStart_of_longRom hrate hlong] at h
      cases h
    · rw [sessionStart_accepts hrate hfits] at h
      exact ⟨hfits, (Except.ok.inj h).symm⟩
  · rw [sessionStart_of_badClockRate hrate] at h
    cases h

/-! ## What memory holds at session start (70_reset_and_hazards.md R330; 20_memory.md R65) -/

/-- The font lies at FONT_BASE, below the ROM. -/
theorem blankByte_glyph (f : Font) (j : Fin 80) : blankByte f (f.base.val + j.val) = f.glyphs[j] := by
  have hlow : f.base.val + j.val < 0x200 := by omega
  have hglyph : f.base.val ≤ f.base.val + j.val ∧ f.base.val + j.val < f.base.val + 80 := by omega
  simp only [blankByte, hlow, if_true, hglyph, and_self, dite_true, Nat.add_sub_cancel_left, Fin.getElem_fin]

theorem blankByte_outside_font (f : Font) {a : Nat} (ha : a < f.base.val ∨ f.base.val + 80 ≤ a) : blankByte f a = 0 := by
  have hout : ¬(f.base.val ≤ a ∧ a < f.base.val + 80) := by omega
  rw [blankByte, dif_neg hout, ite_self]

/-- The ROM's bytes from 0x200 on, and everywhere else what an unlisted address reads as. -/
theorem readByte_startState (a : Nat) :
    (startState order font config rom).readByte a =
      if h : 0x200 ≤ a ∧ a < 0x200 + rom.length then rom[a - 0x200]'(by omega) else blankByte font a :=
  read_writeBytes font rom [] 0x200 a

theorem readByte_startState_rom {j : Nat} (hj : j < rom.length) :
    (startState order font config rom).readByte (0x200 + j) = rom[j] := by
  have hin : 0x200 ≤ 0x200 + j ∧ 0x200 + j < 0x200 + rom.length := by omega
  rw [readByte_startState, dif_pos hin]
  simp only [Nat.add_sub_cancel_left]

theorem readByte_startState_outside_rom {a : Nat} (ha : a < 0x200 ∨ 0x200 + rom.length ≤ a) :
    (startState order font config rom).readByte a = blankByte font a := by
  have hout : ¬(0x200 ≤ a ∧ a < 0x200 + rom.length) := by omega
  rw [readByte_startState, dif_neg hout]

/-- A ROM that fits is loaded inside the 4096 bytes, so memory is canonical; the stack is empty and no fault is recorded. -/
theorem startState_inv (hfits : rom.length ≤ 3584) : (startState order font config rom).Inv where
  pcInRange := show (0x200 : Word).toNat < 0x1000 by decide
  memoryWf := writeBytes_wf rom (nil_wf font) (by rw [progBase_eq]; omega)
  liveReturns _ hk := absurd hk (Nat.not_lt_zero _)
  haltedIffFault := rfl
  faultAtPc := nofun

end

/-! ## A jump to its own address (70_reset_and_hazards.md R340; 41_control_flow.md R152) -/

section
variable {s : State} {nnn : Addr12} (hrun : s.halted = false) (hpc : s.pc.toNat = nnn.toNat) (hin : nnn.toNat ≤ 0xFFE)
  (hword : s.fetchWord = 0x1#4 ++ nnn)
include hrun hpc hin hword

/-- The new pc is the old one, so a step only clears the report. -/
theorem step_selfJump : step s = .next { s with events := [] } := by
  obtain ⟨hdecode, hexec⟩ := jumpSetsPc nnn s
  have hsame : BitVec.ofNat 16 nnn.toNat = s.pc := by rw [← hpc, BitVec.ofNat_toNat, BitVec.setWidth_eq]
  rw [step_decoded hrun (hpc ▸ hin) (hword ▸ hdecode), hexec, hsame]

/-- The state after a step has the jump at its pc again: neither the fetch nor halted reads the report. -/
theorem runsSafely_selfJump (k : Nat) : s.RunsSafely k := by
  induction k generalizing s with
  | zero => trivial
  | succ k ih => exact ⟨_, step_selfJump hrun hpc hin hword, hrun, ih hrun hpc hword⟩

end

/-! ## The statements -/

/-- Settles O52: one step of the jump clears the report, and so the jump runs for any number of steps. -/
theorem selfJumpRunsForever : Obligations.SelfJumpRunsForever := fun _ _ k hrun hpc hin hword =>
  ⟨runsSafely_selfJump hrun hpc hin hword k, step_selfJump hrun hpc hin hword⟩

/-- Settles O56: the two rejections in their order, and `startState` field by field; its memory is the ROM over the font over
zeros, and the font ends at or below 0x200. -/
theorem sessionStartBuildsTheState : Obligations.SessionStartBuildsTheState := by
  intro order font config rom
  refine ⟨sessionStart_of_badClockRate, sessionStart_of_longRom, fun hrate hfits =>
    ⟨_, sessionStart_accepts hrate hfits, fun x => Vector.getElem_replicate x.isLt, rfl, rfl,
      fun k => Vector.getElem_replicate k.isLt, rfl, rfl, rfl, fun k => Vector.getElem_replicate k.isLt, cell_blank,
      rfl, rfl, rfl, rfl, fun j => ?_, fun j => readByte_startState_rom, fun a _ hfont hrom => ?_⟩⟩
  · rw [readByte_startState_outside_rom (.inl (by omega)), blankByte_glyph]
  · rw [readByte_startState_outside_rom hrom, blankByte_outside_font font hfont]

/-- Settles O57: an accepted session starts in `startState`, whose read-only fields are the arguments. -/
theorem acceptedSessionStartMeetsInvariant : Obligations.AcceptedSessionStartMeetsInvariant := by
  intro order font config rom s h
  obtain ⟨hfits, rfl⟩ := sessionStart_eq_ok h
  exact ⟨startState_inv hfits, rfl, rfl, rfl⟩

end Sys2Proof.Machine
end

section
/-! PROOFS. What reaches V and the stack (10_state.md sections 2 and 5), the invariant from session start over every schedule
of the host (40_cycle_engine.md R121), and the four statements of this family. -/

namespace Sys2Proof.Machine

open Sys2Proof Sys2Proof.Claims

/-! ## The frame of V (10_state.md R20, R21) -/

/-- `WriteRF` leaves every register but the result's and VF, in either order of its writes (42_register_alu.md R179). -/
theorem getV_writeRF_other {s : State} {o : ListedOrder} {x y : Reg} {r f : Byte} (hx : x ≠ y) (hflag : VF ≠ y) :
    (s.writeRF o x r f).getV y = s.getV y := by
  unfold State.writeRF
  split
  · rw [getV_setV_other _ f hflag, getV_setV_other _ r hx]
  · rw [getV_setV_other _ r hx, getV_setV_other _ f hflag]

/-- Every handler's writes leave a register that its instruction may not write: the destination's `setV`, VF's as a flag and
the block load are the only ones that reach V. -/
theorem exec_commits_unwrittenRegister {i : Instr} {r : Reg} (hr : ¬mayWriteV i r) (s : State) :
    ∃ h : HandlerResult, h.Commits (fun t => t.getV r = s.getV r) ∧ exec i s = .next (retire (encode i) s h) := by
  cases i <;> refine ⟨_, ?_, rfl⟩
  case ldVxKk | addVxKk | ldVxVy | orVxVy | andVxVy | xorVxVy | rndVxKk | ldVxDt =>
    exact getV_setV_other _ _ (Ne.symm hr)
  case ldVxK =>
    split
    · rfl
    · exact getV_setV_other _ _ (Ne.symm hr)
  case addVxVy | subVxVy | shrVx | subnVxVy | shlVx =>
    obtain ⟨hx, hflag⟩ := not_or.mp hr
    exact getV_writeRF_other (Ne.symm hx) (Ne.symm hflag)
  case drwVxVyN =>
    split
    · trivial
    · exact getV_setV_other _ _ (Ne.symm hr)
  case ldVxMem x =>
    split
    · trivial
    · exact (loadRegisters_readBytes_getElem s.dataBase r).trans (if_neg hr)
  case ret | ldBVx | ldMemVx =>
    split
    · trivial
    · rfl
  case callAddr | skpVx | sknpVx =>
    split
    · rfl
    · trivial
  all_goals rfl

/-! ## The frame of the stack (10_state.md R28, R29) -/

/-- What an instruction leaves of the stack: CALL alone writes an entry, the one at sp, and CALL and RET alone move sp. -/
structure StackFrame (i : Instr) (s t : State) : Prop where
  entry : ∀ k : Fin 16, t.stack[k] = s.stack[k] ∨ ((∃ nnn, i = .callAddr nnn) ∧ k.val = s.sp.val)
  pointer : t.sp = s.sp ∨ (∃ nnn, i = .callAddr nnn) ∨ i = .ret

/-- Writes that leave the entries and sp are within every instruction's frame. -/
theorem StackFrame.of_eq {i : Instr} {s t : State} (hstack : t.stack = s.stack) (hsp : t.sp = s.sp) :
    StackFrame i s t := ⟨fun _ => .inl (by rw [hstack]), .inl hsp⟩

/-- A push writes the entry at sp alone. -/
theorem push_entry {s : State} (hsp : s.sp.val < 16) (a : Word) (k : Fin 16) :
    (s.stack.set s.sp.val a)[k] = s.stack[k] ∨ k.val = s.sp.val := by
  rcases eq_or_ne s.sp.val k.val with hk | hk
  · exact .inr hk.symm
  · exact .inl (Vector.getElem_set_ne hsp k.isLt hk)

/-- Every handler's writes are within its instruction's frame. -/
theorem exec_commits_stackFrame (i : Instr) (s : State) :
    ∃ h : HandlerResult, h.Commits (StackFrame i s) ∧ exec i s = .next (retire (encode i) s h) := by
  cases i <;> refine ⟨_, ?_, rfl⟩
  case callAddr nnn =>
    split
    · exact ⟨fun k => (push_entry ‹_› _ k).imp_right fun hk => ⟨⟨nnn, rfl⟩, hk⟩, .inr (.inl ⟨nnn, rfl⟩)⟩
    · trivial
  case ret =>
    split
    · trivial
    · exact ⟨fun _ => .inl rfl, .inr (.inr rfl)⟩
  case addVxVy | subVxVy | shrVx | subnVxVy | shlVx => exact .of_eq (writeRF_stack ..) (writeRF_sp ..)
  case drwVxVyN | ldBVx | ldMemVx | ldVxMem =>
    split
    · trivial
    · exact .of_eq rfl rfl
  case skpVx | sknpVx =>
    split
    · exact .of_eq rfl rfl
    · trivial
  case ldVxK => split <;> exact .of_eq rfl rfl
  all_goals exact .of_eq rfl rfl

theorem exec_stackFrame {i : Instr} {s t : State} (he : exec i s = .next t) : StackFrame i s t := by
  obtain ⟨h, hc, hr⟩ := exec_commits_stackFrame i s
  obtain rfl := Host.Outcome.next.inj (hr.symm.trans he)
  exact retire_of_commits (fun _ => .of_eq rfl rfl) (fun _ _ ht => ⟨ht.entry, ht.pointer⟩) hc

/-! ## Session start and the schedules of the host (40_cycle_engine.md R121; 70_reset_and_hazards.md R342) -/

/-- Session start with the empty ROM, the default write order and the free font is accepted and builds the state after
reset (70_reset_and_hazards.md R330; log 7). -/
theorem sessionStart_emptyRom {rate : Int} (hrate : 0 < rate) :
    sessionStart .listed Config.font ⟨false, rate⟩ [] = .ok State.reset := sessionStart_accepts hrate (Nat.zero_le _)

/-- A schedule keeps what each of its operations keeps. -/
theorem runHost_keeps {s : State} (hs : s.Inv) (ops : List HostOp) :
    (runHost ops s).Inv ∧ (runHost ops s).legacyMode = s.legacyMode ∧ (runHost ops s).font = s.font ∧
      (runHost ops s).vfWriteOrder = s.vfWriteOrder := by
  induction ops generalizing s with
  | nil => exact ⟨hs, rfl, rfl, rfl⟩
  | cons op ops ih =>
    obtain ⟨hinv, hlegacy, hfont, horder⟩ := everyHostOperationKeepsInvariant s op hs
    obtain ⟨hinv', hlegacy', hfont', horder'⟩ := ih hinv
    exact ⟨hinv', hlegacy'.trans hlegacy, hfont'.trans hfont, horder'.trans horder⟩

/-! ## The statements -/

/-- Settles O16: session start meets the invariant and holds what it was given, and the schedule keeps both. -/
theorem everyHostScheduleKeepsInvariant : Obligations.EveryHostScheduleKeepsInvariant := by
  intro order font config rom s ops h
  obtain ⟨hinv, hlegacy, hfont, horder⟩ := acceptedSessionStartMeetsInvariant order font config rom s h
  obtain ⟨hinv', hlegacy', hfont', horder'⟩ := runHost_keeps hinv ops
  exact ⟨hinv', hlegacy'.trans hlegacy, hfont'.trans hfont, horder'.trans horder⟩

/-- Settles O18: the handler's writes leave the register, and so does the end of the step. -/
theorem onlyDestinationRegistersChange : Obligations.OnlyDestinationRegistersChange := by
  intro i s t he r hr
  obtain ⟨h, hc, hret⟩ := exec_commits_unwrittenRegister hr s
  obtain rfl := Host.Outcome.next.inj (hret.symm.trans he)
  exact retire_of_commits (P := fun t => t.getV r = s.getV r) (fun _ => rfl) (fun _ _ ht => ht) hc

/-- Settles O21: the step is within its instruction's frame of the stack. -/
theorem onlyCallAndRetReachTheStack : Obligations.OnlyCallAndRetReachTheStack := by
  intro i s t he
  obtain ⟨hentry, hpointer⟩ := exec_stackFrame he
  exact ⟨fun k => (hentry k).resolve_left, hpointer.resolve_left⟩

/-- Settles O15: the state after reset is that of an accepted session start. -/
theorem resetMeetsInvariant : Obligations.ResetMeetsInvariant :=
  (acceptedSessionStartMeetsInvariant _ _ _ _ _ (sessionStart_emptyRom Int.one_pos)).1

end Sys2Proof.Machine
end
